-- ==== Sys2Proof/Word.lean ====
section
/-! DEFINITION. The word types of the Decimalus CORE and the three plain value types of the spec:
the decoded Decimal (rule R10), the hidden BigDecimal (rule R42) and the command on the ports (rule R43). -/

namespace Sys2Proof

/-- A 32-bit word (rule R6, `WW = 32`). -/
abbrev Word32 := BitVec 32

/-- An unsigned 96-bit mantissa (rule R6, `MW = 96`). -/
abbrev Mantissa := BitVec 96

/-- An unsigned 192-bit big mantissa (rule R6, `BW = 192`). -/
abbrev BigMantissa := BitVec 192

/-- A Decimal as the ports and R carry it: 128 bits, four words (rules R6, R27, R37). -/
abbrev Port := BitVec 128

/-- The 5-bit opcode `cmd_op` (rule R7, `OPW = 5`). -/
abbrev Opcode := BitVec 5

/-- The contents of the 3-bit status register (rule R7, `STW = 3`). -/
abbrev StatusCode := BitVec 3

/-- A decoded Decimal `(sg, m, sc)` (rule R10): sign (true is negative), mantissa, scale. -/
structure Triple where
  sg : Bool
  m  : Mantissa
  sc : Nat
deriving DecidableEq, Repr, Inhabited

/-- A BigDecimal `(bm, bs)` (rule R42): big mantissa and scale, no sign. -/
structure BigDecimal where
  bm : BigMantissa
  bs : Nat
deriving DecidableEq, Repr, Inhabited

/-- A command: the three values on the command port at the acceptance edge (rule R43). -/
structure Command where
  op : Opcode
  a  : Port
  b  : Port
deriving DecidableEq, Repr, Inhabited

end Sys2Proof
end

