-- ==== Sys2Proof/Config.lean ====
section
/-! DEFINITION. The fixed numbers of the hardware (rule R6) and what the spec leaves open: the
command latency (rule R7), the divider with a zero divisor (rule R71), and the contents of the
hidden scratch registers and idle latches (rule R21). An open value is an opaque constant: nothing
can be proved of its value. -/

namespace Sys2Proof.Config

/-- Largest scale, `SMAX = 28` (rule R6). -/
abbrev smax : Nat := 28

/-- Largest mantissa, `MAX96 = 2^96 - 1` (rule R6). -/
abbrev max96 : Nat := 2 ^ 96 - 1

/-- FREE VALUE (log entry 3): `LAT_MAX` less one. Rule R7 leaves `LAT_MAX` open, at least 1. -/
opaque latMaxLess1 : Nat

/-- `LAT_MAX`, the open bound on the latency (rule R7, decision D28). -/
def latMax : Nat := latMaxLess1 + 1

/-- FREE VALUE (log entry 3): the implementation's choice of a latency for a command. -/
opaque latencyChoice : Command → Nat

/-- `LAT(op, a, b)`: any number from 1 to `LAT_MAX` (rules R7, R31, R133). -/
def lat (c : Command) : Nat := min (latencyChoice c + 1) latMax

/-- FREE VALUE (log entry 5): what the divider returns when started with `V = 0`, which "no rule
says" (rule R71). No command starts it so (rule R90). -/
opaque divmodByZero : BigMantissa → BigMantissa × Mantissa

/-- FREE VALUE (log entry 4): the contents of the hidden BigDecimal scratch registers, whose number
and contents the spec does not fix (rules R21, R42, R125). -/
opaque scratch : Nat → List BigDecimal

/-- FREE VALUE (log entry 4): what the opcode and operand latches hold while no command is in
progress, which rules R21 and R23 leave unspecified. -/
opaque idleLatches : Nat → Command

end Sys2Proof.Config
end

