-- ==== Sys2Proof/Machine/Operands.lean ====
section
/-! DEFINITION. The Decimal format: fields, validity, decoding and encoding (rules R27, R37 to R41). -/

namespace Sys2Proof.Machine

/-- Word `w` of a value: bits `32w+31 .. 32w` (rules R8, R27). -/
def word {n : Nat} (x : BitVec n) (w : Nat) : Word32 := x.extractLsb' (32 * w) 32

/-- Field `sign`, global bit 127 (rule R37). -/
def signField (d : Port) : Bool := d.getLsbD 127

/-- Reserved field, global bits 126..120 (rule R37). -/
def reservedHigh (d : Port) : BitVec 7 := d.extractLsb' 120 7

/-- Field `scale`, global bits 119..112 (rule R37). -/
def scaleField (d : Port) : BitVec 8 := d.extractLsb' 112 8

/-- Reserved field, global bits 111..96 (rule R37). -/
def reservedLow (d : Port) : BitVec 16 := d.extractLsb' 96 16

/-- The mantissa, global bits 95..0: words 2, 1 and 0 (rules R27, R37). -/
def mantissaField (d : Port) : Mantissa := d.extractLsb' 0 96

/-- `valid(d)` (rule R38). -/
def valid (d : Port) : Bool :=
  reservedLow d == 0 && reservedHigh d == 0 && decide ((scaleField d).toNat ≤ Config.smax)

/-- `dec(d)` (rule R39); used only on a valid `d`. -/
def dec (d : Port) : Triple :=
  { sg := signField d, m := mantissaField d, sc := (scaleField d).toNat }

/-- `enc(sg, m, sc)` (rule R40); used only with `sc ≤ 28`. -/
def enc (t : Triple) : Port :=
  BitVec.ofBool t.sg ++ 0#7 ++ BitVec.ofNat 8 t.sc ++ 0#16 ++ t.m

end Sys2Proof.Machine
end

