-- ==== Sys2Proof/Syntax.lean ====
section
/-! DEFINITION. The fifteen commands of `opcode_table.json` as one inductive (rule R45), their
mnemonics and formats, and the spec's written notation for commands and operands (rules R51, R52). -/

namespace Sys2Proof

/-- One command with its operands as the 128-bit port values they arrive as (rules R43, R45).
A CMD1 command has no second operand: `cmd_b` "is not examined in any way" (rule R48). -/
inductive Instr where
  /-- ADD a, b (rule R85) -/
  | add (a b : Port)
  /-- SUB a, b (rule R86) -/
  | sub (a b : Port)
  /-- MUL a, b (rule R88) -/
  | mul (a b : Port)
  /-- DIV a, b (rules R90, R91) -/
  | div (a b : Port)
  /-- CMPEQ a, b (rule R97) -/
  | cmpeq (a b : Port)
  /-- CMPNE a, b (rule R98) -/
  | cmpne (a b : Port)
  /-- CMPLT a, b (rule R99) -/
  | cmplt (a b : Port)
  /-- CMPLE a, b (rule R100) -/
  | cmple (a b : Port)
  /-- CMPGT a, b (rule R101) -/
  | cmpgt (a b : Port)
  /-- CMPGE a, b (rule R102) -/
  | cmpge (a b : Port)
  /-- TRUNC a (rule R104) -/
  | trunc (a : Port)
  /-- FLOOR a (rule R105) -/
  | floor (a : Port)
  /-- ROUND a (rule R106) -/
  | round (a : Port)
  /-- NEG a (rule R107) -/
  | neg (a : Port)
  /-- ALIGN a, b (rule R81) -/
  | align (a b : Port)
deriving DecidableEq, Repr

/-- The two command formats of rule R43. -/
inductive Format where
  /-- two-operand: op, a and b -/
  | cmd2
  /-- one-operand: op and a, b ignored -/
  | cmd1
deriving DecidableEq, Repr

/-- The fifteen mnemonics of rule R45. -/
inductive Mnemonic where
  | add | sub | mul | div
  | cmpeq | cmpne | cmplt | cmple | cmpgt | cmpge
  | trunc | floor | round | neg
  | align
deriving DecidableEq, Repr

/-- The format column of rule R45. -/
def Mnemonic.format : Mnemonic → Format
  | .add => .cmd2 | .sub => .cmd2 | .mul => .cmd2 | .div => .cmd2
  | .cmpeq => .cmd2 | .cmpne => .cmd2 | .cmplt => .cmd2
  | .cmple => .cmd2 | .cmpgt => .cmd2 | .cmpge => .cmd2
  | .trunc => .cmd1 | .floor => .cmd1 | .round => .cmd1 | .neg => .cmd1
  | .align => .cmd2

/-- A written operand, in one of the three ways of rule R52. -/
inductive Operand where
  /-- `[-]digits[.digits]`: the sign, the digits before the point, the digits after it -/
  | literal (negative : Bool) (whole fraction : List (Fin 10))
  /-- `(sg, m, sc)` -/
  | triple (sg : Bool) (m sc : Nat)
  /-- `0x...`, which may be an invalid Decimal -/
  | hex (v : Nat)
deriving DecidableEq, Repr

/-- A written command, `MNEMONIC a, b` or `MNEMONIC a` (rule R51). -/
structure Line where
  mnemonic : Mnemonic
  operands : List Operand
deriving DecidableEq, Repr

end Sys2Proof
end

