-- ==== Sys2Proof/WellFormed.lean ====
section
/-! DEFINITION. Well-formedness: of a command (its operands pass the operand check of rule R47; the
other commands are the spec's "malformed commands", which run and end with a status), and of the
written notation (rules R51, R52). -/

namespace Sys2Proof

/-- Every operand the command uses is a valid Decimal (rules R38, R47, R48). -/
def Instr.wf : Instr → Bool
  | .add a b => Machine.valid a && Machine.valid b
  | .sub a b => Machine.valid a && Machine.valid b
  | .mul a b => Machine.valid a && Machine.valid b
  | .div a b => Machine.valid a && Machine.valid b
  | .cmpeq a b => Machine.valid a && Machine.valid b
  | .cmpne a b => Machine.valid a && Machine.valid b
  | .cmplt a b => Machine.valid a && Machine.valid b
  | .cmple a b => Machine.valid a && Machine.valid b
  | .cmpgt a b => Machine.valid a && Machine.valid b
  | .cmpge a b => Machine.valid a && Machine.valid b
  | .trunc a => Machine.valid a
  | .floor a => Machine.valid a
  | .round a => Machine.valid a
  | .neg a => Machine.valid a
  | .align a b => Machine.valid a && Machine.valid b

/-- The number formed by decimal digits, the most significant first (rule R52). -/
def digitsValue (ds : List (Fin 10)) : Nat := ds.foldl (fun n d => 10 * n + d.val) 0

/-- Rule R52: a literal has digits before the point, at most 28 after it and a mantissa of at most
MAX96; a triple lies inside the envelope; a hexadecimal operand has 128 bits. -/
def Operand.wf : Operand → Bool
  | .literal _ whole fraction =>
      !whole.isEmpty && decide (fraction.length ≤ Config.smax)
        && decide (digitsValue (whole ++ fraction) ≤ Config.max96)
  | .triple _ m sc => decide (m ≤ Config.max96) && decide (sc ≤ Config.smax)
  | .hex v => decide (v < 2 ^ 128)

/-- How many operands a format writes (rules R43, R51). -/
def Format.arity : Format → Nat
  | .cmd2 => 2
  | .cmd1 => 1

/-- A written command has the operands of its format, each well-formed (rules R51, R52). -/
def Line.wf (l : Line) : Bool :=
  l.operands.length == l.mnemonic.format.arity && l.operands.all Operand.wf

end Sys2Proof
end

