-- ==== Sys2Proof/Decode.lean ====
section
/-! DEFINITION. The opcode map (rule R45), the decoder of a command on the ports (total on every
opcode and every pair of operand values; the seventeen reserved opcodes are rejected by name, rule
R46), the encoder, and the reading of the written notation (rules R51, R52). -/

namespace Sys2Proof

/-- Why a command does not decode. -/
inductive DecodeError where
  /-- The opcode is one of the seventeen of rule R46; the core ends such a command with status 7. -/
  | reservedOpcode (op : Opcode)
deriving DecidableEq, Repr

/-- One row of the opcode map: all five bits of `cmd_op` are compared (rule R45). -/
structure OpcodeRow where
  op       : Opcode
  mnemonic : Mnemonic
deriving DecidableEq, Repr

/-- The opcode map of rule R45. -/
def opcodeMap : List OpcodeRow :=
  [ ⟨0b00000#5, .add⟩, ⟨0b00001#5, .sub⟩, ⟨0b00010#5, .mul⟩, ⟨0b00011#5, .div⟩,
    ⟨0b01000#5, .cmpeq⟩, ⟨0b01001#5, .cmpne⟩, ⟨0b01010#5, .cmplt⟩,
    ⟨0b01011#5, .cmple⟩, ⟨0b01100#5, .cmpgt⟩, ⟨0b01101#5, .cmpge⟩,
    ⟨0b10000#5, .trunc⟩, ⟨0b10001#5, .floor⟩, ⟨0b10010#5, .round⟩, ⟨0b10011#5, .neg⟩,
    ⟨0b11000#5, .align⟩ ]

/-- The seventeen reserved opcodes of rule R46. -/
def reservedOpcodes : List Opcode :=
  [0x04#5, 0x05#5, 0x06#5, 0x07#5, 0x0E#5, 0x0F#5, 0x14#5, 0x15#5, 0x16#5, 0x17#5,
   0x19#5, 0x1A#5, 0x1B#5, 0x1C#5, 0x1D#5, 0x1E#5, 0x1F#5]

/-- The mnemonic an opcode selects (rule R45). -/
def mnemonicOf (op : Opcode) : Option Mnemonic :=
  (opcodeMap.find? (fun row => row.op == op)).map OpcodeRow.mnemonic

/-- The command a mnemonic makes of the operand ports (rule R43): format CMD1 drops `cmd_b`. -/
def Instr.build (m : Mnemonic) (a b : Port) : Instr :=
  match m with
  | .add => .add a b
  | .sub => .sub a b
  | .mul => .mul a b
  | .div => .div a b
  | .cmpeq => .cmpeq a b
  | .cmpne => .cmpne a b
  | .cmplt => .cmplt a b
  | .cmple => .cmple a b
  | .cmpgt => .cmpgt a b
  | .cmpge => .cmpge a b
  | .trunc => .trunc a
  | .floor => .floor a
  | .round => .round a
  | .neg => .neg a
  | .align => .align a b

/-- The decoder: what the command on the ports is (rules R43, R45, R46). -/
def decode (c : Command) : Except DecodeError Instr :=
  match mnemonicOf c.op with
  | some m => .ok (Instr.build m c.a c.b)
  | none => .error (.reservedOpcode c.op)

/-- The encoder: the port values of a command (rules R43, R45). A CMD1 command is given `cmd_b = 0`;
by rule R48 any value would do (log entry 9). -/
def encode : Instr → Command
  | .add a b => ⟨0x00#5, a, b⟩
  | .sub a b => ⟨0x01#5, a, b⟩
  | .mul a b => ⟨0x02#5, a, b⟩
  | .div a b => ⟨0x03#5, a, b⟩
  | .cmpeq a b => ⟨0x08#5, a, b⟩
  | .cmpne a b => ⟨0x09#5, a, b⟩
  | .cmplt a b => ⟨0x0A#5, a, b⟩
  | .cmple a b => ⟨0x0B#5, a, b⟩
  | .cmpgt a b => ⟨0x0C#5, a, b⟩
  | .cmpge a b => ⟨0x0D#5, a, b⟩
  | .trunc a => ⟨0x10#5, a, 0⟩
  | .floor a => ⟨0x11#5, a, 0⟩
  | .round a => ⟨0x12#5, a, 0⟩
  | .neg a => ⟨0x13#5, a, 0⟩
  | .align a b => ⟨0x18#5, a, b⟩

/-! ### The command as one number

Rule R50 gives every command one fixed length and rule R43 its three fields; no rule strings the
fields together. DESIGN CHOICE (log entry 2): the number is `{cmd_b, cmd_a, cmd_op}`, so that bit 0
is bit 0 of `cmd_op`, as `opcode_table.json` numbers it. -/

/-- The number `{cmd_b, cmd_a, cmd_op}` of a command, 261 bits. -/
def Command.toNumber (c : Command) : Nat :=
  c.op.toNat + 2 ^ 5 * c.a.toNat + 2 ^ 133 * c.b.toNat

/-- The command whose low `nbits` bits are those of `w`, every bit above them 0. -/
def Command.ofTableWord (nbits w : Nat) : Command :=
  let v := w % 2 ^ nbits
  { op := BitVec.ofNat 5 v, a := BitVec.ofNat 128 (v / 2 ^ 5), b := BitVec.ofNat 128 (v / 2 ^ 133) }

/-- What the decoder reads from the command whose bits are `w`. -/
def decodeTableWord (nbits w : Nat) : Option Instr :=
  match decode (Command.ofTableWord nbits w) with
  | .ok i => some i
  | .error _ => none

/-! ### The written notation -/

/-- The port value of a written operand (rule R52). -/
def Operand.port : Operand → Port
  | .literal negative whole fraction =>
      Machine.enc
        { sg := negative
          m := BitVec.ofNat 96 (digitsValue (whole ++ fraction))
          sc := fraction.length }
  | .triple sg m sc => Machine.enc { sg := sg, m := BitVec.ofNat 96 m, sc := sc }
  | .hex v => BitVec.ofNat 128 v

/-- The command a written line stands for, if it is well-formed (rules R51, R52). -/
def Line.assemble (l : Line) : Option Instr :=
  if l.wf then
    match l.operands with
    | [a, b] => some (Instr.build l.mnemonic a.port b.port)
    | [a] => some (Instr.build l.mnemonic a.port 0)
    | _ => none
  else none

end Sys2Proof
end

