-- ==== Sys2Proof/Machine/Units.lean ====
section
/-! DEFINITION. The datapath units as functions, each with the exact value its rule gives (rules R53
to R75). They read no register and set no status (rules R53, R75); the bit-level structures the
spec names for them are in `Machine/Structure.lean`. -/

namespace Sys2Proof.Machine

/-- `ADD96`, `ADD192` (rules R56, R57): sum and carry. -/
def addc {n : Nat} (a b : BitVec n) : BitVec n × Bool :=
  (BitVec.ofNat n (a.toNat + b.toNat), decide (2 ^ n ≤ a.toNat + b.toNat))

/-- `SUB96`, `SUB192` (rules R58, R59): difference and borrow. -/
def subb {n : Nat} (a b : BitVec n) : BitVec n × Bool :=
  (BitVec.ofInt n ((a.toNat : Int) - (b.toNat : Int)), decide (a.toNat < b.toNat))

/-- `CMPM` (rule R60). -/
def cmpm {n : Nat} (a b : BitVec n) : Ordering :=
  if a.toNat < b.toNat then .lt else if a.toNat = b.toNat then .eq else .gt

/-- `SHL(x, n)` (rule R61): the shifted value and the bits that left at the top. -/
def shl {w : Nat} (x : BitVec w) (n : Nat) : BitVec w × Nat :=
  (BitVec.ofNat w (x.toNat * 2 ^ n), x.toNat * 2 ^ n / 2 ^ w)

/-- `MUL10_96`, `MUL10_192` (rule R62): ten times `x`, or `none` when `ovf = 1`; the unspecified
`y` of that case is left out, as `93_implementation_defined.md` U4 allows. -/
def mul10 {n : Nat} (x : BitVec n) : Option (BitVec n) :=
  if 2 ^ n ≤ 10 * x.toNat then none else some (BitVec.ofNat n (10 * x.toNat))

/-- `DIV10_96`, `DIV10_192` (rule R64): quotient by ten and the discarded digit. -/
def div10 {n : Nat} (x : BitVec n) : BitVec n × Nat :=
  (BitVec.ofNat n (x.toNat / 10), x.toNat % 10)

/-- `DIVP(x, k)` (rule R65). -/
def divPow10 (x k : Nat) : Nat × Nat := (x / 10 ^ k, x % 10 ^ k)

/-- `TRUNCP(x, k)` (rule R66). -/
def truncp (x k : Nat) : Nat := x / 10 ^ k

/-- `RHU(x, k)` (rules R67, R68): drop `k` digits, rounding half up, once from the exact `x`. -/
def rhu (x k : Nat) : Nat :=
  match k with
  | 0 => x
  | k + 1 =>
    let qr := divPow10 x (k + 1)
    if 10 ^ (k + 1) ≤ 2 * qr.2 then qr.1 + 1 else qr.1

/-- `RHU` on a mantissa, where the result is never larger than the operand (rule R83). -/
def rhu96 (m : Mantissa) (k : Nat) : Mantissa := BitVec.ofNat 96 (rhu m.toNat k)

/-- `MUL96(a, b)` (rule R69): the exact 192-bit product. -/
def mul96 (a b : Mantissa) : BigMantissa := BitVec.ofNat 192 (a.toNat * b.toNat)

/-- A 192-bit value "exceeds 96 bits" when `p[191:96] ≠ 0` (rule R70). -/
def exceeds96 (p : BigMantissa) : Bool := p.extractLsb' 96 96 != 0

/-- `DIVMOD192(D, V)` (rule R71): quotient and remainder; for `V = 0`, which is outside the unit's
contract, a free value (log entry 5). -/
def divmod192 (d : BigMantissa) (v : Mantissa) : BigMantissa × Mantissa :=
  if v = 0 then Config.divmodByZero d
  else (BitVec.ofNat 192 (d.toNat / v.toNat), BitVec.ofNat 96 (d.toNat % v.toNat))

/-- `RNDDIV(Q, Rm, V)` (rule R73). -/
def rnddiv (q rm v : Nat) : Nat := if v ≤ 2 * rm then q + 1 else q

/-- The overflow predicate for a product or a rounded quotient `x` with scale `s` (rule R74). -/
def fits (x s : Nat) : Bool := decide (x ≤ Config.max96) && decide (s ≤ Config.smax)

end Sys2Proof.Machine
end

