-- ==== Sys2Proof/Machine/Aligner.lean ====
section
/-! DEFINITION. The scale aligner (rules R76 to R80) and the common scale of addition (rule R83). -/

namespace Sys2Proof.Machine

/-- One loop of rule R76 (and of rule R79, at 192 bits): at most `gap` times, multiply by ten and
raise the scale by one, stopping before the first step that would overflow. -/
def raiseScale {n : Nat} (m : BitVec n) (sc : Nat) : (gap : Nat) → BitVec n × Nat
  | 0 => (m, sc)
  | gap + 1 =>
    match mul10 m with
    | none => (m, sc)
    | some t => raiseScale t (sc + 1) gap

/-- `x` raised toward the scale `target`; unchanged when its scale is not the lower one. -/
def raiseTo (x : Triple) (target : Nat) : Triple :=
  let y := raiseScale x.m x.sc (target - x.sc)
  { sg := x.sg, m := y.1, sc := y.2 }

/-- `ALIGN96(x, y)` (rule R76). "At most one of the two loops runs": each starts from the operand's
own scale and the other's, and does nothing when its operand has not the lower scale. -/
def align96 (x y : Triple) : Triple × Triple := (raiseTo x y.sc, raiseTo y x.sc)

/-- `ALIGN192(x, y)` on BigDecimals (rule R79); no command calls it. -/
def align192 (x y : BigDecimal) : BigDecimal × BigDecimal :=
  let x' := raiseScale x.bm x.bs (y.bs - x.bs)
  let y' := raiseScale y.bm y.bs (x.bs - y.bs)
  ({ bm := x'.1, bs := x'.2 }, { bm := y'.1, bs := y'.2 })

/-- Two mantissas at one scale, the result of `COMMON`. -/
structure CommonScale where
  mx : Mantissa
  my : Mantissa
  s  : Nat
deriving DecidableEq, Repr

/-- `COMMON(x, y)` (rule R83): align, then after a stall round the operand that did not stall to the
scale the stalled one reached. -/
def common (x y : Triple) : CommonScale :=
  let p := align96 x y
  let ex := p.1.sc
  let ey := p.2.sc
  if ey < ex then { mx := rhu96 p.1.m (ex - ey), my := p.2.m, s := ey }
  else if ex < ey then { mx := p.1.m, my := rhu96 p.2.m (ey - ex), s := ex }
  else { mx := p.1.m, my := p.2.m, s := ex }

end Sys2Proof.Machine
end

