-- ==== Sys2Proof/Machine/Flags.lean ====
section
/-! DEFINITION. What the flag F is computed from: the comparator `ORDER` (rule R95), the truth value of
each comparison (rules R97 to R102), and the aligned flag of ALIGN (rule R81). -/

namespace Sys2Proof.Machine

/-- The order of the magnitudes after alignment: a stalled operand is the larger (rules R78, R95). -/
def magnitudeOrder (x y : Triple) : Ordering :=
  let p := align96 x y
  if p.1.sc < p.2.sc then .gt
  else if p.2.sc < p.1.sc then .lt
  else cmpm p.1.m p.2.m

/-- `ORDER(x, y)` (rule R95). -/
def order (x y : Triple) : Ordering :=
  let sx := if x.m = 0 then false else x.sg
  let sy := if y.m = 0 then false else y.sg
  if x.m = 0 ∧ y.m = 0 then .eq
  else if sx ≠ sy then (if sx then .lt else .gt)
  else if sx then (magnitudeOrder x y).swap
  else magnitudeOrder x y

/-- CMPEQ's truth value (rule R97). -/
def flagEq (o : Ordering) : Bool := o == .eq

/-- CMPNE's truth value (rule R98). -/
def flagNe (o : Ordering) : Bool := !(o == .eq)

/-- CMPLT's truth value (rule R99). -/
def flagLt (o : Ordering) : Bool := o == .lt

/-- CMPLE's truth value (rule R100). -/
def flagLe (o : Ordering) : Bool := !(o == .gt)

/-- CMPGT's truth value (rule R101). -/
def flagGt (o : Ordering) : Bool := o == .gt

/-- CMPGE's truth value (rule R102). -/
def flagGe (o : Ordering) : Bool := !(o == .lt)

/-- ALIGN's flag: the scales came out equal (rule R81). -/
def flagAligned (p : Triple × Triple) : Bool := p.1.sc == p.2.sc

end Sys2Proof.Machine
end

