-- ==== Sys2Proof/Machine/State.lean ====
section
/-! DEFINITION. The state of the core (rules R13 to R24), its reset value (rules R23, R124, R126), the
status codes (rules R49, R110) and the two ways a step could stop. -/

namespace Sys2Proof.Machine

/-- The five status codes a command can end with (rules R49, R110). -/
inductive Status where
  | ok | overflow | divByZero | invalidInput | illegalOp
deriving DecidableEq, Repr

/-- The 3-bit code of a status (rule R49). -/
def Status.code : Status → StatusCode
  | .ok => 0#3
  | .overflow => 1#3
  | .divByZero => 3#3
  | .invalidInput => 4#3
  | .illegalOp => 7#3

/-- What the host drives on the input ports at one rising edge of `clk` (rule R26): `rst`,
`cmd_valid`, and `cmd_op`, `cmd_a`, `cmd_b`. -/
structure Pins where
  rst      : Bool
  cmdValid : Bool
  cmd      : Command
deriving DecidableEq, Repr

/-- The command in progress (rules R21, R30): the latched opcode and operands, and how many edges
are left until its completion edge (rule R31). -/
structure InFlight where
  cmd  : Command
  wait : Nat
deriving DecidableEq, Repr

/-- The state of the core just after a rising edge of `clk`. `r`, `st`, `f` are the whole
architectural state (rule R14); the rest is the handshake (rules R21, R26, R30), the host's side of
the ports, and one counter of the model's own. -/
structure State where
  /-- R, the result register (rule R15) -/
  r        : Port
  /-- ST, the status register (rule R16) -/
  st       : StatusCode
  /-- F, the flag (rule R17) -/
  f        : Bool
  /-- the busy bit and the latches it guards (rules R21, R30): `none` is not busy -/
  inFlight : Option InFlight
  /-- the output `rsp_valid` (rules R26, R31) -/
  rspValid : Bool
  /-- what the host presents from now on, oldest first; when nothing is listed it drives
  `rst = 0` and `cmd_valid = 0` -/
  host     : List Pins
  /-- THE MODEL'S OWN (log entry 4): names the current contents of the hidden registers -/
  hidden   : Nat
deriving DecidableEq, Repr

/-- A step that stops with a fault: NONE. No rule stops the core: a failing command "changes nothing
but ST" and completes (rule R113), and the core is then ready for the next (rule R120). -/
inductive Fault where
deriving DecidableEq, Repr

/-- A step the model refuses. -/
inductive Refusal where
  /-- Raised only by an arm of `exec` for a command that has no meaning yet. Safe. No arm does. -/
  | notModelled (mnemonic : String)
deriving DecidableEq, Repr

/-- The core right after reset (rules R23, R124, R126): `R = 0`, `ST = 0`, `F = 0`, not busy,
`rsp_valid = 0`. The host presents nothing and the hidden counter is 0 (log entries 1 and 4). -/
def State.reset : State :=
  { r := 0, st := 0, f := false, inFlight := none, rspValid := false, host := [], hidden := 0 }

end Sys2Proof.Machine
end

