-- ==== Sys2Proof/Machine/Ops.lean ====
section
/-! DEFINITION. The shared operations on the state: how a command ends (rules R11, R113), the operand
check (rule R47), the handshake (rules R30, R31), reset (rules R124, R125) and the output ports (rule
R26). -/

namespace Sys2Proof.Machine

/-! ### How a command ends -/

/-- `done(v)`: R and ST (rule R11). -/
def State.done (v : Port) (s : State) : State := { s with r := v, st := Status.ok.code }

/-- `doneflag(b)`: F and ST (rule R11). -/
def State.doneFlag (b : Bool) (s : State) : State := { s with f := b, st := Status.ok.code }

/-- The end of a successful ALIGN: R, F and ST (rule R81). -/
def State.doneBoth (v : Port) (b : Bool) (s : State) : State :=
  { s with r := v, f := b, st := Status.ok.code }

/-- `raise Status(c)`: the one way a command fails. "ST takes c; R keeps its value; F keeps its
value": no trap, no saved state, nothing to return from (rules R11, R113, R120). -/
def State.raise (c : Status) (s : State) : State := { s with st := c.code }

/-! ### The operand check -/

/-- A CMD1 command: check `a`, then compute with it decoded (rules R47, R48). -/
def withOperand (a : Port) (s : State) (k : Triple → State) : Host.Outcome State Fault Refusal :=
  .next (if valid a then k (dec a) else s.raise .invalidInput)

/-- A CMD2 command: check `a` and `b`, then compute with them decoded (rule R47). -/
def withOperands (a b : Port) (s : State) (k : Triple → Triple → State) :
    Host.Outcome State Fault Refusal :=
  .next (if valid a && valid b then k (dec a) (dec b) else s.raise .invalidInput)

/-! ### The handshake and reset -/

/-- Busy (rule R30). -/
def State.busy (s : State) : Bool := s.inFlight.isSome

/-- An edge at which neither reset nor a command does anything: R, ST and F hold (rule R122) and
`rsp_valid` is low; the hidden registers may change (rule R21). -/
def State.idleEdge (s : State) : State := { s with rspValid := false, hidden := s.hidden + 1 }

/-- A reset edge (rules R124, R125): the registers take their reset values, a command in progress
is abandoned, `rsp_valid` is low, and the hidden registers may hold anything. -/
def State.resetEdge (s : State) : State :=
  { s with
    r := State.reset.r
    st := State.reset.st
    f := State.reset.f
    inFlight := none
    rspValid := false
    hidden := s.hidden + 1 }

/-- The acceptance edge of a command (rule R30): its values are latched and the core is busy. -/
def State.accept (c : Command) (s : State) : State :=
  { s with
    inFlight := some { cmd := c, wait := Config.lat c }
    rspValid := false
    hidden := s.hidden + 1 }

/-- What the completion edge does beside the command's own effect (rule R31): busy clears and
`rsp_valid` is high. -/
def State.complete (s : State) : State :=
  { s with inFlight := none, rspValid := true, hidden := s.hidden + 1 }

/-! ### The outputs -/

/-- The output ports of rule R26. -/
structure Outputs where
  cmdReady : Bool
  rspValid : Bool
  res      : Port
  status   : StatusCode
  flag     : Bool
deriving DecidableEq, Repr

/-- The values of the output ports (rule R26): functions of the state, read without any effect on
it (rule R36). -/
def State.outputs (s : State) : Outputs :=
  { cmdReady := !s.busy, rspValid := s.rspValid, res := s.r, status := s.st, flag := s.f }

/-! ### The hidden registers -/

/-- The hidden BigDecimal scratch registers (rules R21, R42): free contents. -/
def State.scratch (s : State) : List BigDecimal := Config.scratch s.hidden

/-- The opcode and operand latches (rule R21): the command in progress, free contents otherwise. -/
def State.latches (s : State) : Command :=
  match s.inFlight with
  | some c => c.cmd
  | none => Config.idleLatches s.hidden

end Sys2Proof.Machine
end

