-- ==== Sys2Proof/Machine/Align.lean ====
section
/-! DEFINITION. The command ALIGN (rule R81). -/

namespace Sys2Proof.Machine

/-- ALIGN a, b (rule R81): R takes the first operand after alignment, F whether the scales agree. -/
def execAlign (a b : Port) (s : State) : Host.Outcome State Fault Refusal :=
  withOperands a b s fun x y =>
    s.doneBoth (enc (align96 x y).1) (flagAligned (align96 x y))

end Sys2Proof.Machine
end

