-- ==== Sys2Proof/Machine/Arithmetic.lean ====
section
/-! DEFINITION. The arithmetic commands ADD, SUB, MUL, DIV (rules R82 to R93). -/

namespace Sys2Proof.Machine

/-- `basic_add` of rule R84: two mantissas at scale `s` with the common sign `sg`; one reduction
step when the sum carries, overflow when it carries at scale 0. -/
def basicAdd (sg : Bool) (c : CommonScale) : Option Triple :=
  if (addc c.mx c.my).2 then
    if c.s = 0 then none
    else some { sg := sg, m := (addc (rhu96 c.mx 1) (rhu96 c.my 1)).1, sc := c.s - 1 }
  else some { sg := sg, m := (addc c.mx c.my).1, sc := c.s }

/-- `basic_sub` of rule R84: the larger mantissa minus the smaller, with the sign of the larger;
plus zero when they are equal. -/
def basicSub (sx sy : Bool) (c : CommonScale) : Triple :=
  match cmpm c.mx c.my with
  | .eq => { sg := false, m := 0, sc := c.s }
  | .gt => { sg := sx, m := (subb c.mx c.my).1, sc := c.s }
  | .lt => { sg := sy, m := (subb c.my c.mx).1, sc := c.s }

/-- `ADDCORE(x, y)` (rule R84); `none` is `OVERFLOW`. -/
def addCore (x y : Triple) : Option Triple :=
  if x.sg = y.sg then basicAdd x.sg (common x y)
  else some (basicSub x.sg y.sg (common x y))

/-- How ADD and SUB end on the answer of `ADDCORE` (rules R85, R86). -/
def State.endSum (v : Option Triple) (s : State) : State :=
  match v with
  | some t => s.done (enc t)
  | none => s.raise .overflow

/-- ADD a, b (rule R85). -/
def execAdd (a b : Port) (s : State) : Host.Outcome State Fault Refusal :=
  withOperands a b s fun x y => s.endSum (addCore x y)

/-- SUB a, b (rule R86): ADDCORE with the sign of `b` inverted. -/
def execSub (a b : Port) (s : State) : Host.Outcome State Fault Refusal :=
  withOperands a b s fun x y => s.endSum (addCore x { y with sg := !y.sg })

/-- How MUL and DIV end: the mantissa and scale found, with sign `sg`, or overflow. -/
def State.endScaled (sg : Bool) (v : Option (Nat × Nat)) (s : State) : State :=
  match v with
  | some mt => s.done (enc { sg := sg, m := BitVec.ofNat 96 mt.1, sc := mt.2 })
  | none => s.raise .overflow

/-- The loop of rule R88 for a product `p` with scale `s`, by result scale `t = s - k`: from the
given `t` down to 0, the first at which `RHU(p, k)` fits. -/
def reduceProduct (p s : Nat) : (t : Nat) → Option (Nat × Nat)
  | 0 => if fits (rhu p s) 0 then some (rhu p s, 0) else none
  | t + 1 =>
    if fits (rhu p (s - (t + 1))) (t + 1) then some (rhu p (s - (t + 1)), t + 1)
    else reduceProduct p s t

/-- MUL a, b (rule R88). The first `k = max(0, s - 28)` is the result scale `min(s, 28)`. -/
def execMul (a b : Port) (s : State) : Host.Outcome State Fault Refusal :=
  withOperands a b s fun x y =>
    s.endScaled (x.sg ^^ y.sg)
      (reduceProduct (mul96 x.m y.m).toNat (x.sc + y.sc) (min (x.sc + y.sc) Config.smax))

/-- One round of the loop of rule R91, at result scale `t = e + k`, that is `k = t - ea + eb`:
the rounded quotient if the scaled dividend can be formed and the quotient fits. -/
def quotientAt (x y : Triple) (t : Nat) : Option Nat :=
  let d := x.m.toNat * 10 ^ (t + y.sc - x.sc)
  if 2 ^ 192 ≤ d then none
  else
    let qr := divmod192 (BitVec.ofNat 192 d) y.m
    let m := rnddiv qr.1.toNat qr.2.toNat y.m.toNat
    if fits m t then some m else none

/-- The loop of rule R91 by result scale: from the given `t` down to `max(e, 0) = ea - eb` (natural
subtraction), the first at which the rounded quotient fits. -/
def divideFrom (x y : Triple) : (t : Nat) → Option (Nat × Nat)
  | 0 =>
    if 0 < x.sc - y.sc then none
    else (quotientAt x y 0).map fun m => (m, 0)
  | t + 1 =>
    if t + 1 < x.sc - y.sc then none
    else
      match quotientAt x y (t + 1) with
      | some m => some (m, t + 1)
      | none => divideFrom x y t

/-- DIV a, b (rules R90, R91): divisor test, dividend test, then the search from scale 28 down. -/
def execDiv (a b : Port) (s : State) : Host.Outcome State Fault Refusal :=
  withOperands a b s fun x y =>
    if y.m = 0 then s.raise .divByZero
    else if x.m = 0 then s.done (enc { sg := x.sg ^^ y.sg, m := 0, sc := max x.sc y.sc })
    else s.endScaled (x.sg ^^ y.sg) (divideFrom x y Config.smax)

end Sys2Proof.Machine
end

