-- ==== Sys2Proof/Machine/Comparison.lean ====
section
/-! DEFINITION. The six comparison commands (rules R94 to R102). -/

namespace Sys2Proof.Machine

/-- A comparison command: F takes the truth value `test` reads off `ORDER` (rule R94). -/
def compareWith (test : Ordering → Bool) (a b : Port) (s : State) :
    Host.Outcome State Fault Refusal :=
  withOperands a b s fun x y => s.doneFlag (test (order x y))

/-- CMPEQ a, b (rule R97). -/
def execCmpeq (a b : Port) (s : State) : Host.Outcome State Fault Refusal :=
  compareWith flagEq a b s

/-- CMPNE a, b (rule R98). -/
def execCmpne (a b : Port) (s : State) : Host.Outcome State Fault Refusal :=
  compareWith flagNe a b s

/-- CMPLT a, b (rule R99). -/
def execCmplt (a b : Port) (s : State) : Host.Outcome State Fault Refusal :=
  compareWith flagLt a b s

/-- CMPLE a, b (rule R100). -/
def execCmple (a b : Port) (s : State) : Host.Outcome State Fault Refusal :=
  compareWith flagLe a b s

/-- CMPGT a, b (rule R101). -/
def execCmpgt (a b : Port) (s : State) : Host.Outcome State Fault Refusal :=
  compareWith flagGt a b s

/-- CMPGE a, b (rule R102). -/
def execCmpge (a b : Port) (s : State) : Host.Outcome State Fault Refusal :=
  compareWith flagGe a b s

end Sys2Proof.Machine
end

