-- ==== Sys2Proof/Machine/Rounder.lean ====
section
/-! DEFINITION. The rounder commands TRUNC, FLOOR, ROUND, NEG (rules R103 to R109). -/

namespace Sys2Proof.Machine

/-- TRUNC a (rule R104). -/
def execTrunc (a : Port) (s : State) : Host.Outcome State Fault Refusal :=
  withOperand a s fun x =>
    s.done (enc { sg := x.sg, m := BitVec.ofNat 96 (divPow10 x.m.toNat x.sc).1, sc := 0 })

/-- The magnitude FLOOR gives: one further from zero for a negative non-integer (rule R105). -/
def floorMagnitude (x : Triple) : Nat :=
  let qr := divPow10 x.m.toNat x.sc
  if x.sg && decide (qr.2 ≠ 0) then qr.1 + 1 else qr.1

/-- FLOOR a (rule R105). -/
def execFloor (a : Port) (s : State) : Host.Outcome State Fault Refusal :=
  withOperand a s fun x =>
    s.done (enc { sg := x.sg, m := BitVec.ofNat 96 (floorMagnitude x), sc := 0 })

/-- ROUND a (rule R106). -/
def execRound (a : Port) (s : State) : Host.Outcome State Fault Refusal :=
  withOperand a s fun x => s.done (enc { sg := x.sg, m := rhu96 x.m x.sc, sc := 0 })

/-- NEG a (rule R107). -/
def execNeg (a : Port) (s : State) : Host.Outcome State Fault Refusal :=
  withOperand a s fun x => s.done (enc { x with sg := !x.sg })

end Sys2Proof.Machine
end

