-- ==== Sys2Proof/Machine/Dispatch.lean ====
section
/-! DEFINITION. The meaning of every command: one arm per constructor of `Instr`. -/

namespace Sys2Proof.Machine

def exec (i : Instr) (s : State) : Host.Outcome State Fault Refusal :=
  match i with
  | .add a b => Sys2Proof.Machine.execAdd a b s
  | .sub a b => Sys2Proof.Machine.execSub a b s
  | .mul a b => Sys2Proof.Machine.execMul a b s
  | .div a b => Sys2Proof.Machine.execDiv a b s
  | .cmpeq a b => Sys2Proof.Machine.execCmpeq a b s
  | .cmpne a b => Sys2Proof.Machine.execCmpne a b s
  | .cmplt a b => Sys2Proof.Machine.execCmplt a b s
  | .cmple a b => Sys2Proof.Machine.execCmple a b s
  | .cmpgt a b => Sys2Proof.Machine.execCmpgt a b s
  | .cmpge a b => Sys2Proof.Machine.execCmpge a b s
  | .trunc a => Sys2Proof.Machine.execTrunc a s
  | .floor a => Sys2Proof.Machine.execFloor a s
  | .round a => Sys2Proof.Machine.execRound a s
  | .neg a => Sys2Proof.Machine.execNeg a s
  | .align a b => Sys2Proof.Machine.execAlign a b s

end Sys2Proof.Machine
end

