-- ==== Sys2Proof/Machine/Fetch.lean ====
section
/-! DEFINITION. From the ports to a meaning: executing an accepted command (rules R32, R46), one
transaction of the host with the core (rules R13, R30 to R32, R124), and a sequence of commands
(rules R32, R134). -/

namespace Sys2Proof.Machine

/-- `exec(s, c)` of rule R32: the command's meaning, or ILLEGAL_OP for a reserved opcode, whose
operands are not looked at (rules R46, R118). -/
def execute (c : Command) (s : State) : Host.Outcome State Fault Refusal :=
  match decode c with
  | .ok i => exec i s
  | .error _ => .next (s.raise .illegalOp)

/-- The completion edge of the command `c` (rule R31). -/
def finish (c : Command) (s : State) : Host.Outcome State Fault Refusal :=
  match execute c s with
  | .next t => .next t.complete
  | .fault r => .fault r
  | .refused r => .refused r

/-- A free core takes the host's next row: a command is accepted and run to its completion; else
the edge is idle (rules R13, R30, R31). -/
def takeRow (p : Pins) (s : State) : Host.Outcome State Fault Refusal :=
  if p.cmdValid then finish p.cmd (s.accept p.cmd) else .next s.idleEdge

/-- One transaction, time left out (rule R133): reset if the host drives `rst`; else the completion
of the command in progress, during which the host's row waits (rules R30, R128); else the host's
next row. -/
def transact (s : State) : Host.Outcome State Fault Refusal :=
  match s.host, s.inFlight with
  | [], none => .next s.idleEdge
  | [], some c => finish c.cmd s
  | p :: rest, none =>
    if p.rst then .next (State.resetEdge { s with host := rest })
    else takeRow p { s with host := rest }
  | p :: rest, some c =>
    if p.rst then .next (State.resetEdge { s with host := rest })
    else finish c.cmd s

/-- The row with which the host offers the command `c`. -/
def offer (c : Command) : Pins := { rst := false, cmdValid := true, cmd := c }

/-- The state after a sequence of commands: `exec(... exec(exec(s0, c1), c2) ..., cn)` (rules R32,
R134). -/
def executeAll : List Command → State → Host.Outcome State Fault Refusal
  | [], s => .next s
  | c :: cs, s =>
    match execute c s with
    | .next t => executeAll cs t
    | .fault r => .fault r
    | .refused r => .refused r

/-- A free core with the command whose bits are `w` offered next. -/
def State.offerWord (s : State) (nbits w : Nat) : State :=
  { s with inFlight := none, host := offer (Command.ofTableWord nbits w) :: s.host }

end Sys2Proof.Machine
end

