-- ==== Sys2Proof/Machine/Step.lean ====
section
/-! DEFINITION. The step of the machine and where it takes its next command from. -/

namespace Sys2Proof.Machine

/-- One step: one transaction of the host with the core, a command being one atomic step (rule R13). -/
def step (s : State) : Host.Outcome State Fault Refusal := transact s

/-- `s` with the command whose bits are `w` offered on the command port next (log entry 2). The core
has no program (rules R19, R34): a program is what the host offers, one command after another, so
this stands for the host (log entry 6). -/
def State.withFetchWord (s : State) (nbits w : Nat) : State := s.offerWord nbits w

end Sys2Proof.Machine
end

