-- ==== Sys2Proof/Machine/BitWord.lean ====
section
/-! DEFINITION. BitWord: the bit primitives on a word and on a value of several words (rules R54, R55). -/

namespace Sys2Proof.Machine

/-- `getbit32(w, i)` (rule R54). -/
def getbit32 (w : Word32) (i : Nat) : Bool := w.getLsbD i

/-- `setbit32(w, i)` (rule R54). -/
def setbit32 (w : Word32) (i : Nat) : Word32 := w ||| BitVec.twoPow 32 i

/-- `clearbit32(w, i)` (rule R54). -/
def clearbit32 (w : Word32) (i : Nat) : Word32 := w &&& ~~~BitVec.twoPow 32 i

/-- `togglebit32(w, i)` (rule R54). -/
def togglebit32 (w : Word32) (i : Nat) : Word32 := w ^^^ BitVec.twoPow 32 i

/-- `x` with its word `w` replaced by `v`, every other word as it was (rule R55). -/
def withWord {n : Nat} (x : BitVec n) (w : Nat) (v : Word32) : BitVec n :=
  (x &&& ~~~((0xFFFFFFFF#32).setWidth n <<< (32 * w))) ||| (v.setWidth n <<< (32 * w))

/-- `getbit(x, g)`: bit `g mod 32` of word `g div 32` (rule R55). -/
def getbit {n : Nat} (x : BitVec n) (g : Nat) : Bool := getbit32 (word x (g / 32)) (g % 32)

/-- `setbit(x, g)` (rule R55). -/
def setbit {n : Nat} (x : BitVec n) (g : Nat) : BitVec n :=
  withWord x (g / 32) (setbit32 (word x (g / 32)) (g % 32))

/-- `clearbit(x, g)` (rule R55). -/
def clearbit {n : Nat} (x : BitVec n) (g : Nat) : BitVec n :=
  withWord x (g / 32) (clearbit32 (word x (g / 32)) (g % 32))

/-- `togglebit(x, g)` (rule R55). -/
def togglebit {n : Nat} (x : BitVec n) (g : Nat) : BitVec n :=
  withWord x (g / 32) (togglebit32 (word x (g / 32)) (g % 32))

end Sys2Proof.Machine
end

