-- ==== Sys2Proof/Machine/Structure.lean ====
section
/-! DEFINITION. The bit-level and step-by-step structures the spec names for the units (rules R56 to
R71): ripple adder and subtractor, word-by-word comparator, shift-add times ten, digit-by-digit
division by powers of ten, shift-add multiplier, restoring divider. The commands use the functions of
`Machine/Units.lean`; that each structure gives its unit's value is for the obligations to say. -/

namespace Sys2Proof.Machine

/-- The carry chain of rule R56: `c[0] = 0`, `c[i+1]` the majority of `a[i]`, `b[i]`, `c[i]`. -/
def carryChain {n : Nat} (a b : BitVec n) : Nat → Bool
  | 0 => false
  | i + 1 =>
    let c := carryChain a b i
    (a.getLsbD i && b.getLsbD i) || (a.getLsbD i && c) || (b.getLsbD i && c)

/-- The ripple adder of rule R56 on the low `k` bits: `sum[i] = a[i] xor b[i] xor c[i]`. -/
def rippleSum {n : Nat} (a b : BitVec n) : Nat → BitVec n
  | 0 => 0
  | i + 1 =>
    if (a.getLsbD i ^^ b.getLsbD i) ^^ carryChain a b i then
      rippleSum a b i ||| BitVec.twoPow n i
    else rippleSum a b i

/-- The ripple-carry adder of rules R56 and R57. -/
def rippleAdd {n : Nat} (a b : BitVec n) : BitVec n × Bool :=
  (rippleSum a b n, carryChain a b n)

/-- The borrow chain of rule R58. -/
def borrowChain {n : Nat} (a b : BitVec n) : Nat → Bool
  | 0 => false
  | i + 1 =>
    (!a.getLsbD i && b.getLsbD i) || (!(a.getLsbD i ^^ b.getLsbD i) && borrowChain a b i)

/-- The ripple subtractor of rule R58 on the low `k` bits. -/
def rippleDiff {n : Nat} (a b : BitVec n) : Nat → BitVec n
  | 0 => 0
  | i + 1 =>
    if (a.getLsbD i ^^ b.getLsbD i) ^^ borrowChain a b i then
      rippleDiff a b i ||| BitVec.twoPow n i
    else rippleDiff a b i

/-- The ripple-borrow subtractor of rules R58 and R59. -/
def rippleSub {n : Nat} (a b : BitVec n) : BitVec n × Bool :=
  (rippleDiff a b n, borrowChain a b n)

/-- The word-by-word comparison of rule R60 over words `k-1 .. 0`. -/
def cmpWords {n : Nat} (a b : BitVec n) : Nat → Ordering
  | 0 => .eq
  | w + 1 =>
    if word a w = word b w then cmpWords a b w
    else if (word b w).toNat < (word a w).toNat then .gt
    else .lt

/-- The times-ten structure of rule R62: `8x + 2x` with its three overflow signals. -/
def mul10Structure {n : Nat} (x : BitVec n) : BitVec n × Bool :=
  let p := shl x 3
  let q := shl x 1
  let y := addc p.1 q.1
  (y.1, decide (p.2 ≠ 0) || decide (q.2 ≠ 0) || y.2)

/-- `x(k)` of rule R65: `k` divisions by ten. -/
def div10Times {n : Nat} (x : BitVec n) : Nat → BitVec n
  | 0 => x
  | k + 1 => (div10 (div10Times x k)).1

/-- The digit `d(j)` of rule R65, discarded by step `j`. -/
def discardedDigit {n : Nat} (x : BitVec n) (j : Nat) : Nat := (div10 (div10Times x j)).2

/-- `d(0) + 10 × d(1) + ... + 10^(k-1) × d(k-1)` of rule R65. -/
def discardedValue {n : Nat} (x : BitVec n) : Nat → Nat
  | 0 => 0
  | k + 1 => discardedValue x k + 10 ^ k * discardedDigit x k

/-- The shift-add multiplier of rule R69 after the bits below `k` of `b`. -/
def shiftAddMul (a b : Mantissa) : Nat → BigMantissa
  | 0 => 0
  | i + 1 =>
    if b.getLsbD i then (addc (shiftAddMul a b i) (shl (a.setWidth 192) i).1).1
    else shiftAddMul a b i

/-- The restoring divider of rule R71: the dividend bits `i-1 .. 0` are still to come, `rem` and `q`
are the running remainder and quotient. -/
def restoringDiv (d : BigMantissa) (v : Mantissa) :
    Nat → BigMantissa → BigMantissa → BigMantissa × BigMantissa
  | 0, rem, q => (q, rem)
  | i + 1, rem, q =>
    let rem' := (addc (shl rem 1).1 (BitVec.ofNat 192 (d.getLsbD i).toNat)).1
    if v.toNat ≤ rem'.toNat then
      restoringDiv d v i (subb rem' (v.setWidth 192)).1 (q ||| BitVec.twoPow 192 i)
    else restoringDiv d v i rem' q

end Sys2Proof.Machine
end

