-- ==== Sys2Proof/Machine/Clock.lean ====
section
/-! DEFINITION. The same core edge by edge of `clk`, with the latency kept: the valid/ready handshake
(rules R26, R28, R30, R31, R128, R131), the latency (rules R7, R31, R133) and reset at any edge
(rules R124 to R126). Here the pins are the argument of each edge and the state's `host` is not
read. -/

namespace Sys2Proof.Machine

/-- One rising edge of `clk` with the pins at `p`. Reset wins (rule R124); a busy core counts down
to its completion edge and ignores the command pins (rules R30, R31); a free core accepts a command
that is offered (rule R30). -/
def clockEdge (p : Pins) (s : State) : Host.Outcome State Fault Refusal :=
  if p.rst then .next s.resetEdge
  else
    match s.inFlight with
    | some c =>
      if c.wait ≤ 1 then finish c.cmd s
      else .next { s.idleEdge with inFlight := some { c with wait := c.wait - 1 } }
    | none => if p.cmdValid then .next (s.accept p.cmd) else .next s.idleEdge

/-- A run of edges, the pins of each in order. -/
def clockRun : List Pins → State → Host.Outcome State Fault Refusal
  | [], s => .next s
  | p :: ps, s =>
    match clockEdge p s with
    | .next t => clockRun ps t
    | .fault r => .fault r
    | .refused r => .refused r

end Sys2Proof.Machine
end

