-- ==== Sys2Proof/Safety.lean ====
section
/-! DEFINITION. The terms the claims use: the value of a Decimal (rule R10), the invariant of a reachable
state (rule R24), and the parts of the state an observer sees. -/

namespace Sys2Proof

/-- `val(sg, m, sc) = (-1)^sg × m / 10^sc` (rule R10). -/
def Triple.val (x : Triple) : ℚ :=
  (if x.sg then -1 else 1) * (x.m.toNat : ℚ) / 10 ^ x.sc

end Sys2Proof

namespace Sys2Proof.Machine

/-- The value of a Decimal on a port (rule R39). -/
def portVal (d : Port) : ℚ := (dec d).val

/-- The status codes that can stand in ST (rule R24). -/
def legalStatus (c : StatusCode) : Bool := [0#3, 1#3, 3#3, 4#3, 7#3].contains c

/-- A command in progress has between 1 and `LAT_MAX` edges to go (rules R7, R31). -/
def InFlight.wf (c : InFlight) : Prop := 1 ≤ c.wait ∧ c.wait ≤ Config.latMax

/-- The invariant of rule R24, with the bound of rule R31 on a command in progress. -/
structure State.Inv (s : State) : Prop where
  resultValid : valid s.r = true
  statusLegal : legalStatus s.st = true
  inFlightWf  : ∀ c, s.inFlight = some c → c.wf

/-! ### Which registers a command writes -/

/-- The commands that produce a Decimal, and so write R when they end with status 0 (rules R15, R45). -/
def writesR : Instr → Bool
  | .add _ _ | .sub _ _ | .mul _ _ | .div _ _ => true
  | .trunc _ | .floor _ | .round _ | .neg _ => true
  | .align _ _ => true
  | .cmpeq _ _ | .cmpne _ _ | .cmplt _ _ | .cmple _ _ | .cmpgt _ _ | .cmpge _ _ => false

/-- The seven commands that write F when they end with status 0 (rules R17, R45). -/
def writesF : Instr → Bool
  | .cmpeq _ _ | .cmpne _ _ | .cmplt _ _ | .cmple _ _ | .cmpgt _ _ | .cmpge _ _ => true
  | .align _ _ => true
  | .add _ _ | .sub _ _ | .mul _ _ | .div _ _ => false
  | .trunc _ | .floor _ | .round _ | .neg _ => false

/-- Format CMD1: `cmd_b` is not examined (rules R43, R48). -/
def oneOperand : Instr → Bool
  | .trunc _ | .floor _ | .round _ | .neg _ => true
  | .add _ _ | .sub _ _ | .mul _ _ | .div _ _ | .align _ _ => false
  | .cmpeq _ _ | .cmpne _ _ | .cmplt _ _ | .cmple _ _ | .cmpgt _ _ | .cmpge _ _ => false

/-! ### Arithmetic the claims speak of -/

/-- Alignment does not stall: the lower-scale mantissa reaches the higher scale within 96 bits
(rules R76, R78). -/
def noStall (x y : Triple) : Bool :=
  decide (x.m.toNat * 10 ^ (y.sc - x.sc) ≤ Config.max96)
    && decide (y.m.toNat * 10 ^ (x.sc - y.sc) ≤ Config.max96)

/-- The number of alignment steps `j` an operand with mantissa `m` takes toward a scale `gap` higher:
all of them, or as many as fit 96 bits (rule R76). -/
def alignSteps (m gap j : Nat) : Prop :=
  j ≤ gap ∧ m * 10 ^ j ≤ Config.max96 ∧ (j = gap ∨ Config.max96 < m * 10 ^ (j + 1))

/-- The exact quotient `ma × 10^k / mb` at result scale `t = ea - eb + k`, rounded once, half up
(rule R91). -/
def roundedQuotient (x y : Triple) (t : Nat) : Nat :=
  (2 * (x.m.toNat * 10 ^ (t + y.sc - x.sc)) + y.m.toNat) / (2 * y.m.toNat)

end Sys2Proof.Machine
end

