-- ==== Sys2Proof/Certificates/Slice0/Obligations.lean ====
section
/-! DEFINITION. The statements for the provers, in the order of OBLIGATIONS.json. -/

open Sys2Proof Sys2Proof.Machine

/-! ### Encoding -/

/-- Rules R43, R45, R50: the command of every instruction, written as one number, decodes back to that
instruction, for every value of its operands. The order of the three fields in the number is the
model's choice (log entry 2). -/
def Obligations.EncodedCommandNumberDecodesBack : Prop :=
  ∀ i : Instr, decodeTableWord 261 (encode i).toNumber = some i

/-- Rules R43, R45, R48: a command on the ports decodes to `i` exactly when it has `i`'s opcode, `i`'s
first operand and, unless `i` is a one-operand command, `i`'s second operand. -/
def Obligations.DecodeMatchesOpcodeMap : Prop :=
  ∀ (c : Command) (i : Instr),
    decode c = .ok i ↔
      c.op = (encode i).op ∧ c.a = (encode i).a ∧ (oneOperand i = false → c.b = (encode i).b)

/-- Rules R46, R118: the reserved opcodes are exactly the seventeen that no command has; such a command
is accepted like any other, whatever its operands, and ends with status 7, R and F unchanged. -/
def Obligations.ReservedOpcodeEndsIllegal : Prop :=
  (∀ op : Opcode,
    op ∈ [0x04#5, 0x05#5, 0x06#5, 0x07#5, 0x0E#5, 0x0F#5, 0x14#5, 0x15#5, 0x16#5, 0x17#5,
          0x19#5, 0x1A#5, 0x1B#5, 0x1C#5, 0x1D#5, 0x1E#5, 0x1F#5]
      ↔ ∀ i : Instr, (encode i).op ≠ op) ∧
  ∀ (c : Command) (s : State) (rest : List Pins),
    c.op ∈ [0x04#5, 0x05#5, 0x06#5, 0x07#5, 0x0E#5, 0x0F#5, 0x14#5, 0x15#5, 0x16#5, 0x17#5,
            0x19#5, 0x1A#5, 0x1B#5, 0x1C#5, 0x1D#5, 0x1E#5, 0x1F#5] →
    s.inFlight = none → s.host = offer c :: rest →
    ∃ t, step s = .next t ∧ t.st = 7#3 ∧ t.r = s.r ∧ t.f = s.f ∧
      t.inFlight = none ∧ t.rspValid = true ∧ t.host = rest

/-- Rule R45 and the vectors of `95_test_vectors.md` and `96_test_vectors_commands.md`: one port word
of each family, bit for bit, decodes to the command it stands for. -/
def Obligations.SpecCommandWordsDecode : Prop :=
  decode ⟨0b00000#5, 0x00020000000000000000000000000064#128, 0x00010000000000000000000000000019#128⟩
    = .ok (.add 0x00020000000000000000000000000064#128 0x00010000000000000000000000000019#128) ∧
  decode ⟨0b01010#5, 0x80000000000000000000000000000002#128, 0x80000000000000000000000000000001#128⟩
    = .ok (.cmplt 0x80000000000000000000000000000002#128 0x80000000000000000000000000000001#128) ∧
  decode ⟨0b10011#5, 0x00010000000000000000000000000019#128, 0xFFFFFFFFFFFFFFFFFFFFFFFFFFFFFFFF#128⟩
    = .ok (.neg 0x00010000000000000000000000000019#128) ∧
  decode ⟨0b11000#5, 0x00010000000000000000000000000019#128, 0x00020000000000000000000000000064#128⟩
    = .ok (.align 0x00010000000000000000000000000019#128 0x00020000000000000000000000000064#128)

/-- Rule R40: the fields and the number of `enc(sg, m, sc)` for a triple inside the envelope, and that
`dec` and `enc` undo each other (the spec marks these last two clauses as derived from rules R37 and
R39). -/
def Obligations.DecimalEncodingIsTheNumber : Prop :=
  (∀ t : Triple, t.sc ≤ 28 →
    (enc t).toNat = t.sg.toNat * 2 ^ 127 + t.sc * 2 ^ 112 + t.m.toNat ∧
    (enc t).getLsbD 127 = t.sg ∧
    (enc t).extractLsb' 120 7 = 0#7 ∧
    ((enc t).extractLsb' 112 8).toNat = t.sc ∧
    (enc t).extractLsb' 96 16 = 0#16 ∧
    (enc t).extractLsb' 0 96 = t.m ∧
    dec (enc t) = t) ∧
  ∀ d : Port, valid d = true → enc (dec d) = d

/-- Rule R38: `valid(d)` is the three field tests, every mantissa is valid at every scale 0..28 with
either sign, and the magnitude of a valid Decimal is at most MAX96 (the spec marks this last clause
as derived from the first two). -/
def Obligations.ValidDecimalFields : Prop :=
  (∀ d : Port, valid d = true ↔
    d.toNat / 2 ^ 96 % 2 ^ 16 = 0 ∧ d.toNat / 2 ^ 120 % 2 ^ 7 = 0 ∧ d.toNat / 2 ^ 112 % 2 ^ 8 ≤ 28) ∧
  (∀ (sg : Bool) (m : Mantissa) (sc : Nat), sc ≤ 28 → valid (enc ⟨sg, m, sc⟩) = true) ∧
  ∀ d : Port, valid d = true → |portVal d| ≤ ((2 ^ 96 - 1 : ℕ) : ℚ)

/-! ### Units -/

/-- Rule R54: the bit primitives on a word, as numbers, for every index 0..31. -/
def Obligations.WordBitPrimitives : Prop :=
  ∀ (w : Word32) (i : Nat), i < 32 →
    (getbit32 w i).toNat = w.toNat / 2 ^ i % 2 ∧
    (setbit32 w i).toNat = w.toNat + 2 ^ i * (1 - (w.getLsbD i).toNat) ∧
    (clearbit32 w i).toNat = w.toNat - 2 ^ i * (w.getLsbD i).toNat ∧
    ((togglebit32 w i).toNat : Int) = (w.toNat : Int) + 2 ^ i * (1 - 2 * ((w.getLsbD i).toNat : Int))

/-- Rule R55: the global bit primitives on a value of N = 3, 4 or 6 words act on bit `g` and leave
every other bit as it was. -/
def Obligations.GlobalBitPrimitives : Prop :=
  ∀ N ∈ [3, 4, 6], ∀ (x : BitVec (32 * N)) (g j : Nat), g < 32 * N → j < 32 * N →
    getbit x g = x.getLsbD g ∧
    (setbit x g).getLsbD j = (if j = g then true else x.getLsbD j) ∧
    (clearbit x g).getLsbD j = (if j = g then false else x.getLsbD j) ∧
    (togglebit x g).getLsbD j = (if j = g then !x.getLsbD g else x.getLsbD j)

/-- Rules R56, R57: sum and carry of ADD96 and ADD192, and the ripple-carry chain gives them (the spec
marks the clause on the chain as derived, by induction on the bits). -/
def Obligations.RippleAdderGivesSum : Prop :=
  ∀ n ∈ [96, 192], ∀ a b : BitVec n,
    (addc a b).1.toNat = (a.toNat + b.toNat) % 2 ^ n ∧
    (addc a b).2.toNat = (a.toNat + b.toNat) / 2 ^ n ∧
    rippleAdd a b = addc a b

/-- Rules R58, R59: difference and borrow of SUB96 and SUB192, and the ripple-borrow chain gives them
(the spec marks the clause on the chain as derived, by induction on the bits). -/
def Obligations.RippleSubtractorGivesDifference : Prop :=
  ∀ n ∈ [96, 192], ∀ a b : BitVec n,
    ((subb a b).1.toNat : Int) = ((a.toNat : Int) - b.toNat) % 2 ^ n ∧
    ((subb a b).2 = true ↔ a.toNat < b.toNat) ∧
    (b.toNat ≤ a.toNat → (subb a b).1.toNat = a.toNat - b.toNat) ∧
    rippleSub a b = subb a b

/-- Rule R60: CMPM is the unsigned order, and the word-by-word scan from the most significant word
gives it, for three words and for six. -/
def Obligations.WordComparisonGivesOrder : Prop :=
  ∀ N ∈ [3, 6], ∀ a b : BitVec (32 * N),
    (cmpm a b = .lt ↔ a.toNat < b.toNat) ∧
    (cmpm a b = .eq ↔ a = b) ∧
    (cmpm a b = .gt ↔ b.toNat < a.toNat) ∧
    cmpWords a b N = cmpm a b

/-- Rule R61: SHL moves the value `n` places up, and with the bits that left at the top nothing is
lost, for every count 0..W. -/
def Obligations.ShifterKeepsEveryBit : Prop :=
  ∀ W ∈ [96, 192], ∀ (x : BitVec W) (n : Nat), n ≤ W →
    (shl x n).1 = x <<< n ∧
    (shl x n).1.toNat + (shl x n).2 * 2 ^ W = x.toNat * 2 ^ n ∧
    (shl x n).2 < 2 ^ n

/-- Rule R62: MUL10 overflows exactly when `10 × x ≥ 2^W`, that is above `(2^W - 1) div 10`, gives
`10 × x` otherwise, and the structure `8x + 2x` gives the same (the spec marks the clause on the
structure as derived). That the unit answers `none`, no result word, when it overflows is the model's
reading (log entry 8, DEDUCED). -/
def Obligations.TimesTenSignalsOverflow : Prop :=
  ∀ W ∈ [96, 192], ∀ x : BitVec W,
    (mul10 x = none ↔ 2 ^ W ≤ 10 * x.toNat) ∧
    (mul10 x = none ↔ (2 ^ W - 1) / 10 < x.toNat) ∧
    (∀ y, mul10 x = some y → y.toNat = 10 * x.toNat) ∧
    mul10 x = if (mul10Structure x).2 then none else some (mul10Structure x).1

/-- Rules R64, R65: `k` divisions by ten give the quotient by `10^k`, and the discarded digits, each
0..9, make up the remainder. The spec marks the equality as derived. -/
def Obligations.DigitStepsDivideByPowersOfTen : Prop :=
  ∀ n ∈ [96, 192], ∀ (x : BitVec n) (k : Nat),
    (div10Times x k).toNat = (divPow10 x.toNat k).1 ∧
    discardedValue x k = (divPow10 x.toNat k).2 ∧
    discardedDigit x k ≤ 9

/-- Rule R67: RHU's definition, its closed form `(x + 5 × 10^(k-1)) div 10^k`, its reading by the
final discarded digit, and that it is a nearest multiple. The spec marks the equivalent forms as
derived. -/
def Obligations.RoundHalfUpIsNearest : Prop :=
  ∀ x k : Nat,
    rhu x 0 = x ∧
    (0 < k →
      rhu x k = (x + 5 * 10 ^ (k - 1)) / 10 ^ k ∧
      (rhu x k = x / 10 ^ k + 1 ↔ 5 ≤ x / 10 ^ (k - 1) % 10) ∧
      (rhu x k = x / 10 ^ k ↔ x / 10 ^ (k - 1) % 10 < 5)) ∧
    2 * (rhu x k * 10 ^ k) ≤ 2 * x + 10 ^ k ∧
    2 * x < 2 * (rhu x k * 10 ^ k) + 10 ^ k

/-- Rule R69: MUL96 is the exact product, and shift-add over the 96 bits of `b` gives it. -/
def Obligations.ShiftAddMultiplierGivesProduct : Prop :=
  ∀ a b : Mantissa,
    (mul96 a b).toNat = a.toNat * b.toNat ∧ shiftAddMul a b 96 = mul96 a b

/-- Rules R71, R72: for `V ≠ 0`, DIVMOD192 gives quotient and remainder, the 192-step restoring loop
gives the same (the spec marks the clause on the loop as derived, from the loop invariant), and the
quotient fits a mantissa exactly when its high half is 0. -/
def Obligations.RestoringDividerDivides : Prop :=
  ∀ (d : BigMantissa) (v : Mantissa), v ≠ 0 →
    d.toNat = (divmod192 d v).1.toNat * v.toNat + (divmod192 d v).2.toNat ∧
    (divmod192 d v).2.toNat < v.toNat ∧
    restoringDiv d v 192 0 0 = ((divmod192 d v).1, (divmod192 d v).2.setWidth 192) ∧
    (exceeds96 (divmod192 d v).1 = false ↔ (divmod192 d v).1.toNat ≤ Config.max96)

/-! ### The aligner -/

/-- Rule R77 (which the spec marks as derived): alignment preserves both values and signs, never
touches the higher-scale operand, ends with equal scales or a stall, is symmetric, and never stalls
on a zero mantissa. -/
def Obligations.AlignmentKeepsValues : Prop :=
  ∀ x y x' y' : Triple, align96 x y = (x', y') →
    x'.val = x.val ∧ y'.val = y.val ∧ x'.sg = x.sg ∧ y'.sg = y.sg ∧
    (y.sc ≤ x.sc → x' = x) ∧ (x.sc ≤ y.sc → y' = y) ∧
    x'.sc ≤ max x.sc y.sc ∧ y'.sc ≤ max x.sc y.sc ∧
    (x'.sc = y'.sc → x'.sc = max x.sc y.sc) ∧
    (x'.sc = y'.sc ↔ noStall x y = true) ∧
    (x.m = 0 → x.sc ≤ y.sc → x'.sc = y.sc) ∧
    align96 y x = (y', x')

/-- Rule R78 (which the spec marks as derived): after a stall the operand with the lower scale cannot
be raised further and is strictly larger in magnitude. -/
def Obligations.StalledOperandIsLarger : Prop :=
  ∀ x y x' y' : Triple, align96 x y = (x', y') → x'.sc < y'.sc →
    Config.max96 < 10 * x'.m.toNat ∧ |y.val| < |x.val|

/-- Rule R81: ALIGN. R takes the first operand raised as far as it goes, F whether the scales came out
equal, ST 0; on an invalid operand only ST changes, to 4. -/
def Obligations.AlignReturnsFirstOperandAligned : Prop :=
  ∀ (a b : Port) (s : State),
    (valid a = false ∨ valid b = false → exec (.align a b) s = .next { s with st := 4#3 }) ∧
    (valid a = true → valid b = true →
      ∃ j, alignSteps (dec a).m.toNat ((dec b).sc - (dec a).sc) j ∧
        exec (.align a b) s = .next
          { s with
            r := enc ⟨(dec a).sg, BitVec.ofNat 96 ((dec a).m.toNat * 10 ^ j), (dec a).sc + j⟩
            f := noStall (dec a) (dec b)
            st := 0#3 })

/-! ### ADD and SUB -/

/-- Rule R83: COMMON. The lower-scale operand is raised as far as it goes; the other is rounded half
up to the scale reached; COMMON of the swapped operands is the swapped answer. -/
def Obligations.CommonScaleRoundsTheOtherOperand : Prop :=
  ∀ x y : Triple, x.sc ≤ y.sc →
    (∃ j, alignSteps x.m.toNat (y.sc - x.sc) j ∧
      (common x y).s = x.sc + j ∧
      (common x y).mx.toNat = x.m.toNat * 10 ^ j ∧
      (common x y).my.toNat = rhu y.m.toNat (y.sc - (x.sc + j))) ∧
    common y x = { mx := (common x y).my, my := (common x y).mx, s := (common x y).s }

/-- Rules R84, R85: ADD, on the two mantissas at the common scale: same signs add, with one reduction
by a digit when the sum leaves 96 bits and overflow at scale 0; opposite signs subtract the smaller
from the larger, equal magnitudes giving plus zero. The spec marks as derived, from rule R67, that
the sum of the two reduced mantissas fits 96 bits. -/
def Obligations.AddFollowsTheSigns : Prop :=
  ∀ (a b : Port) (s : State),
    (valid a = false ∨ valid b = false → exec (.add a b) s = .next { s with st := 4#3 }) ∧
    (valid a = true → valid b = true →
      ∀ (sx sy : Bool) (mx my sc : Nat),
        sx = (dec a).sg → sy = (dec b).sg →
        mx = (common (dec a) (dec b)).mx.toNat → my = (common (dec a) (dec b)).my.toNat →
        sc = (common (dec a) (dec b)).s →
        (sx = sy → mx + my ≤ Config.max96 →
          exec (.add a b) s
            = .next { s with r := enc ⟨sx, BitVec.ofNat 96 (mx + my), sc⟩, st := 0#3 }) ∧
        (sx = sy → Config.max96 < mx + my → 0 < sc →
          rhu mx 1 + rhu my 1 ≤ Config.max96 ∧
          exec (.add a b) s
            = .next { s with r := enc ⟨sx, BitVec.ofNat 96 (rhu mx 1 + rhu my 1), sc - 1⟩, st := 0#3 }) ∧
        (sx = sy → Config.max96 < mx + my → sc = 0 →
          exec (.add a b) s = .next { s with st := 1#3 }) ∧
        (sx ≠ sy → mx = my →
          exec (.add a b) s = .next { s with r := enc ⟨false, 0, sc⟩, st := 0#3 }) ∧
        (sx ≠ sy → my < mx →
          exec (.add a b) s
            = .next { s with r := enc ⟨sx, BitVec.ofNat 96 (mx - my), sc⟩, st := 0#3 }) ∧
        (sx ≠ sy → mx < my →
          exec (.add a b) s
            = .next { s with r := enc ⟨sy, BitVec.ofNat 96 (my - mx), sc⟩, st := 0#3 }))

/-- Rule R86: SUB is ADD with the sign bit of `b` inverted, for every pair of operands. -/
def Obligations.SubAddsTheInvertedOperand : Prop :=
  ∀ (a b : Port) (s : State), exec (.sub a b) s = exec (.add a (togglebit b 127)) s

/-- Rule R87 (3) (which the spec marks as derived): when alignment does not stall and the sum fits, ADD
and SUB complete with status 0 and the exact value, at the larger scale. -/
def Obligations.AddAndSubAreExactWithoutLoss : Prop :=
  ∀ (a b : Port) (s : State) (m : Nat), valid a = true → valid b = true →
    noStall (dec a) (dec b) = true →
    m = (dec a).m.toNat * 10 ^ ((dec b).sc - (dec a).sc)
          + (dec b).m.toNat * 10 ^ ((dec a).sc - (dec b).sc) →
    ((dec a).sg ≠ (dec b).sg ∨ m ≤ Config.max96 →
      ∃ v, exec (.add a b) s = .next { s with r := v, st := 0#3 } ∧ valid v = true ∧
        (dec v).sc = max (dec a).sc (dec b).sc ∧ portVal v = portVal a + portVal b) ∧
    ((dec a).sg = (dec b).sg ∨ m ≤ Config.max96 →
      ∃ v, exec (.sub a b) s = .next { s with r := v, st := 0#3 } ∧ valid v = true ∧
        (dec v).sc = max (dec a).sc (dec b).sc ∧ portVal v = portVal a - portVal b)

/-- Rule R87 (5) (which the spec marks as derived): the error of ADD in units of the result's last
digit: at most 1/2 without a carry, 1 without a stall, 1.05 in every case, and 1.05 is reached. -/
def Obligations.AddErrorIsBounded : Prop :=
  (∀ (a b : Port) (s : State) (v : Port), valid a = true → valid b = true →
    exec (.add a b) s = .next { s with r := v, st := 0#3 } →
    |portVal v - (portVal a + portVal b)| * 10 ^ (dec v).sc ≤ 21 / 20 ∧
    (noStall (dec a) (dec b) = true →
      |portVal v - (portVal a + portVal b)| * 10 ^ (dec v).sc ≤ 1) ∧
    ((dec a).sg ≠ (dec b).sg ∨
        (common (dec a) (dec b)).mx.toNat + (common (dec a) (dec b)).my.toNat ≤ Config.max96 →
      |portVal v - (portVal a + portVal b)| * 10 ^ (dec v).sc ≤ 1 / 2)) ∧
  ∃ a b v : Port, ∀ s : State, exec (.add a b) s = .next { s with r := v, st := 0#3 } ∧
    |portVal v - (portVal a + portVal b)| * 10 ^ (dec v).sc = 21 / 20

/-- Rule R115: OVERFLOW, exactly, of ADD, SUB, MUL and DIV on valid operands. -/
def Obligations.OverflowIsRaisedExactly : Prop :=
  ∀ (a b : Port) (s : State), valid a = true → valid b = true →
    (exec (.add a b) s = .next { s with st := 1#3 } ↔
      (dec a).sg = (dec b).sg ∧ (common (dec a) (dec b)).s = 0 ∧
      2 ^ 96 ≤ (common (dec a) (dec b)).mx.toNat + (common (dec a) (dec b)).my.toNat) ∧
    (exec (.sub a b) s = .next { s with st := 1#3 } ↔
      (dec a).sg ≠ (dec b).sg ∧ (common (dec a) (dec b)).s = 0 ∧
      2 ^ 96 ≤ (common (dec a) (dec b)).mx.toNat + (common (dec a) (dec b)).my.toNat) ∧
    (exec (.mul a b) s = .next { s with st := 1#3 } ↔
      Config.max96 < rhu ((dec a).m.toNat * (dec b).m.toNat) ((dec a).sc + (dec b).sc)) ∧
    (exec (.div a b) s = .next { s with st := 1#3 } ↔
      (dec b).m ≠ 0 ∧
      Config.max96 <
        (2 * ((dec a).m.toNat * 10 ^ (dec b).sc) + (dec b).m.toNat * 10 ^ (dec a).sc)
          / (2 * ((dec b).m.toNat * 10 ^ (dec a).sc)))

/-- Rules R87 (1) and R89 (4) (which the spec marks as derived): ADD and MUL commute, R, F and ST bit for
bit, for every pair of operands. -/
def Obligations.AddAndMulCommute : Prop :=
  ∀ (a b : Port) (s : State),
    exec (.add a b) s = exec (.add b a) s ∧ exec (.mul a b) s = exec (.mul b a) s

/-- Rule R87 (2) and a corner case of rule R86 (the spec marks the first as derived): adding the
negation, or subtracting a value from itself, gives plus zero at the operand's scale. -/
def Obligations.AddOfNegationIsPlusZero : Prop :=
  ∀ (a : Port) (s : State), valid a = true →
    ∃ n, exec (.neg a) s = .next { s with r := n, st := 0#3 } ∧
      exec (.add a n) s = .next { s with r := enc ⟨false, 0, (dec a).sc⟩, st := 0#3 } ∧
      exec (.sub a a) s = .next { s with r := enc ⟨false, 0, (dec a).sc⟩, st := 0#3 }

/-! ### MUL and DIV -/

/-- Rule R88: MUL. The exact product rounded once, half away from zero, to the largest scale in 0..28
not above `ea + eb` at which it fits 96 bits, with the xor of the signs; overflow when it does not
fit at scale 0. -/
def Obligations.MulTakesLargestFittingScale : Prop :=
  ∀ (a b : Port) (s : State),
    (valid a = false ∨ valid b = false → exec (.mul a b) s = .next { s with st := 4#3 }) ∧
    (valid a = true → valid b = true →
      ∀ p sc : Nat, p = (dec a).m.toNat * (dec b).m.toNat → sc = (dec a).sc + (dec b).sc →
        (rhu p sc ≤ Config.max96 →
          ∃ t, t ≤ min sc 28 ∧ rhu p (sc - t) ≤ Config.max96 ∧
            (∀ t', t < t' → t' ≤ min sc 28 → Config.max96 < rhu p (sc - t')) ∧
            exec (.mul a b) s = .next
              { s with
                r := enc ⟨(dec a).sg ^^ (dec b).sg, BitVec.ofNat 96 (rhu p (sc - t)), t⟩
                st := 0#3 }) ∧
        (Config.max96 < rhu p sc → exec (.mul a b) s = .next { s with st := 1#3 }))

/-- Rule R90: DIV tests the divisor first, then the dividend. -/
def Obligations.DivTestsDivisorThenDividend : Prop :=
  ∀ (a b : Port) (s : State), valid a = true → valid b = true →
    ((dec b).m = 0 → exec (.div a b) s = .next { s with st := 3#3 }) ∧
    ((dec b).m ≠ 0 → (dec a).m = 0 →
      exec (.div a b) s = .next
        { s with
          r := enc ⟨(dec a).sg ^^ (dec b).sg, 0, max (dec a).sc (dec b).sc⟩
          st := 0#3 })

/-- Rule R91: DIV with a dividend and a divisor that are not zero. The exact quotient rounded once,
half away from zero, to the largest scale in 0..28 (and not below `ea - eb`) at which it fits 96
bits; overflow when it fits at none. -/
def Obligations.DivTakesLargestFittingScale : Prop :=
  ∀ (a b : Port) (s : State),
    (valid a = false ∨ valid b = false → exec (.div a b) s = .next { s with st := 4#3 }) ∧
    (valid a = true → valid b = true →
      ((dec b).m = 0 → exec (.div a b) s = .next { s with st := 3#3 }) ∧
      ((dec b).m ≠ 0 → (dec a).m = 0 →
        exec (.div a b) s = .next
          { s with
            r := enc ⟨(dec a).sg ^^ (dec b).sg, 0, max (dec a).sc (dec b).sc⟩
            st := 0#3 }) ∧
      ((dec b).m ≠ 0 → (dec a).m ≠ 0 →
        roundedQuotient (dec a) (dec b) ((dec a).sc - (dec b).sc) ≤ Config.max96 →
        ∃ t, (dec a).sc - (dec b).sc ≤ t ∧ t ≤ 28 ∧
          roundedQuotient (dec a) (dec b) t ≤ Config.max96 ∧
          (∀ t', t < t' → t' ≤ 28 → Config.max96 < roundedQuotient (dec a) (dec b) t') ∧
          exec (.div a b) s = .next
            { s with
              r := enc ⟨(dec a).sg ^^ (dec b).sg,
                        BitVec.ofNat 96 (roundedQuotient (dec a) (dec b) t), t⟩
              st := 0#3 }) ∧
      ((dec b).m ≠ 0 → (dec a).m ≠ 0 →
        Config.max96 < roundedQuotient (dec a) (dec b) ((dec a).sc - (dec b).sc) →
        exec (.div a b) s = .next { s with st := 1#3 }))

/-- Rules R89 (5) and R92 (7) (which the spec marks as derived): a product or quotient is within half a
unit of the result's last digit of the exact value. -/
def Obligations.ProductsAndQuotientsAreNearest : Prop :=
  ∀ (a b : Port) (s : State) (v : Port), valid a = true → valid b = true →
    (exec (.mul a b) s = .next { s with r := v, st := 0#3 } →
      |portVal v - portVal a * portVal b| * 10 ^ (dec v).sc ≤ 1 / 2) ∧
    (exec (.div a b) s = .next { s with r := v, st := 0#3 } →
      |portVal v - portVal a / portVal b| * 10 ^ (dec v).sc ≤ 1 / 2)

/-- Rule R92 (4) (which the spec marks as derived): with a divisor that is not zero and a scale not
above the dividend's, DIV completes with status 0. -/
def Obligations.DivFitsWhenDividendScaleIsNotLower : Prop :=
  ∀ (a b : Port) (s : State), valid a = true → valid b = true → (dec b).m ≠ 0 →
    (dec b).sc ≤ (dec a).sc →
    ∃ v, exec (.div a b) s = .next { s with r := v, st := 0#3 } ∧ valid v = true

/-! ### Comparisons -/

/-- Rule R96 (1) (which the spec marks as derived): ORDER is the order of the values. -/
def Obligations.OrderIsTheOrderOfValues : Prop :=
  ∀ x y : Triple,
    (order x y = .lt ↔ x.val < y.val) ∧
    (order x y = .eq ↔ x.val = y.val) ∧
    (order x y = .gt ↔ y.val < x.val)

/-- Rules R94, R97 to R102: each comparison writes its truth value to F and 0 to ST, and nothing else;
on an invalid operand it writes only ST. -/
def Obligations.ComparisonsWriteTheFlag : Prop :=
  ∀ (a b : Port) (s : State),
    (valid a = false ∨ valid b = false →
      exec (.cmpeq a b) s = .next { s with st := 4#3 } ∧
      exec (.cmpne a b) s = .next { s with st := 4#3 } ∧
      exec (.cmplt a b) s = .next { s with st := 4#3 } ∧
      exec (.cmple a b) s = .next { s with st := 4#3 } ∧
      exec (.cmpgt a b) s = .next { s with st := 4#3 } ∧
      exec (.cmpge a b) s = .next { s with st := 4#3 }) ∧
    (valid a = true → valid b = true →
      exec (.cmpeq a b) s
        = .next { s with f := decide (order (dec a) (dec b) = .eq), st := 0#3 } ∧
      exec (.cmpne a b) s
        = .next { s with f := decide (order (dec a) (dec b) ≠ .eq), st := 0#3 } ∧
      exec (.cmplt a b) s
        = .next { s with f := decide (order (dec a) (dec b) = .lt), st := 0#3 } ∧
      exec (.cmple a b) s
        = .next { s with f := decide (order (dec a) (dec b) ≠ .gt), st := 0#3 } ∧
      exec (.cmpgt a b) s
        = .next { s with f := decide (order (dec a) (dec b) = .gt), st := 0#3 } ∧
      exec (.cmpge a b) s
        = .next { s with f := decide (order (dec a) (dec b) ≠ .lt), st := 0#3 })

/-- Rule R96 (2) to (5) (which the spec marks as derived), on the commands themselves: CMPLT, CMPEQ and
CMPGT leave in F which of less, equal and greater the values are, and CMPGE, CMPNE and CMPLE the
opposite. -/
def Obligations.ComparisonsDecideTheValues : Prop :=
  ∀ (a b : Port) (s : State), valid a = true → valid b = true →
    exec (.cmplt a b) s = .next { s with f := decide (portVal a < portVal b), st := 0#3 } ∧
    exec (.cmpeq a b) s = .next { s with f := decide (portVal a = portVal b), st := 0#3 } ∧
    exec (.cmpgt a b) s = .next { s with f := decide (portVal b < portVal a), st := 0#3 } ∧
    exec (.cmpge a b) s = .next { s with f := decide (portVal b ≤ portVal a), st := 0#3 } ∧
    exec (.cmpne a b) s = .next { s with f := decide (portVal a ≠ portVal b), st := 0#3 } ∧
    exec (.cmple a b) s = .next { s with f := decide (portVal a ≤ portVal b), st := 0#3 }

/-! ### The rounder -/

/-- Rule R104: TRUNC. -/
def Obligations.TruncDropsTheFraction : Prop :=
  ∀ (a : Port) (s : State),
    (valid a = false → exec (.trunc a) s = .next { s with st := 4#3 }) ∧
    (valid a = true →
      exec (.trunc a) s = .next
        { s with
          r := enc ⟨(dec a).sg, BitVec.ofNat 96 ((dec a).m.toNat / 10 ^ (dec a).sc), 0⟩
          st := 0#3 })

/-- Rule R105: FLOOR. The magnitude goes up by one for a negative non-integer, and stays in 96 bits
(the spec marks this last clause as derived from rule R65). -/
def Obligations.FloorRoundsTowardMinusInfinity : Prop :=
  ∀ (a : Port) (s : State),
    (valid a = false → exec (.floor a) s = .next { s with st := 4#3 }) ∧
    (valid a = true →
      ∃ q, q = (dec a).m.toNat / 10 ^ (dec a).sc
            + (if (dec a).sg = true ∧ (dec a).m.toNat % 10 ^ (dec a).sc ≠ 0 then 1 else 0) ∧
        q ≤ Config.max96 ∧
        exec (.floor a) s = .next
          { s with r := enc ⟨(dec a).sg, BitVec.ofNat 96 q, 0⟩, st := 0#3 })

/-- Rule R106: ROUND. The magnitude is rounded half up once, and stays in 96 bits. The spec marks as
derived, from rule R67, the bound and the reading of RHU as one division that is used here. -/
def Obligations.RoundGoesHalfAwayFromZero : Prop :=
  ∀ (a : Port) (s : State),
    (valid a = false → exec (.round a) s = .next { s with st := 4#3 }) ∧
    (valid a = true →
      ∃ q, q = (2 * (dec a).m.toNat + 10 ^ (dec a).sc) / (2 * 10 ^ (dec a).sc) ∧
        q ≤ Config.max96 ∧
        exec (.round a) s = .next
          { s with r := enc ⟨(dec a).sg, BitVec.ofNat 96 q, 0⟩, st := 0#3 })

/-- Rule R107: NEG flips the sign bit, which is `togglebit(a, 127)`, and nothing else. -/
def Obligations.NegFlipsTheSignBit : Prop :=
  ∀ (a : Port) (s : State),
    (valid a = false → exec (.neg a) s = .next { s with st := 4#3 }) ∧
    (valid a = true →
      enc ⟨!(dec a).sg, (dec a).m, (dec a).sc⟩ = togglebit a 127 ∧
      exec (.neg a) s = .next { s with r := togglebit a 127, st := 0#3 })

/-- Rule R108 (3) (which the spec marks as derived): FLOOR is the floor of the value. -/
def Obligations.FloorIsTheFloorOfTheValue : Prop :=
  ∀ (a : Port) (s : State), valid a = true →
    ∃ v, exec (.floor a) s = .next { s with r := v, st := 0#3 } ∧
      portVal v = (⌊portVal a⌋ : ℚ)

/-- Rule R108 (2) and (4) (which the spec marks as derived): TRUNC goes toward zero by less than one and
keeps the sign bit; ROUND keeps the sign bit, its mantissa is TRUNC's or one more, and it is within a
half, a tie going away from zero. -/
def Obligations.TruncAndRoundAreNear : Prop :=
  ∀ (a : Port) (s : State), valid a = true →
    ∃ v w, exec (.trunc a) s = .next { s with r := v, st := 0#3 } ∧
      exec (.round a) s = .next { s with r := w, st := 0#3 } ∧
      (dec v).sg = (dec a).sg ∧ (dec w).sg = (dec a).sg ∧
      |portVal v - portVal a| < 1 ∧
      |portVal v| ≤ |portVal a| ∧ |portVal a| < |portVal v| + 1 ∧
      ((dec w).m.toNat = (dec v).m.toNat ∨ (dec w).m.toNat = (dec v).m.toNat + 1) ∧
      |portVal w - portVal a| ≤ 1 / 2 ∧
      (|portVal w - portVal a| = 1 / 2 → |portVal a| < |portVal w|)

/-- Rule R108 (1) and (5) (which the spec marks as derived): at scale 0, TRUNC, FLOOR and ROUND return
the operand; TRUNC and ROUND commute with NEG bit for bit. -/
def Obligations.RounderAtScaleZeroAndUnderNeg : Prop :=
  ∀ (a : Port) (s : State), valid a = true →
    ((dec a).sc = 0 →
      exec (.trunc a) s = .next { s with r := a, st := 0#3 } ∧
      exec (.floor a) s = .next { s with r := a, st := 0#3 } ∧
      exec (.round a) s = .next { s with r := a, st := 0#3 }) ∧
    ∃ n v w, exec (.neg a) s = .next { s with r := n, st := 0#3 } ∧
      exec (.trunc a) s = .next { s with r := v, st := 0#3 } ∧
      exec (.trunc n) s = .next { s with r := togglebit v 127, st := 0#3 } ∧
      exec (.round a) s = .next { s with r := w, st := 0#3 } ∧
      exec (.round n) s = .next { s with r := togglebit w 127, st := 0#3 }

/-! ### Statuses and frames -/

/-- Rules R47, R117: INVALID_INPUT, exactly. A legal opcode with an operand it uses that is not a valid
Decimal ends with status 4 and changes nothing else; no other command ends with status 4. -/
def Obligations.InvalidOperandEndsWithInvalidInput : Prop :=
  ∀ (i : Instr) (s : State),
    (i.wf = false → exec i s = .next { s with st := 4#3 }) ∧
    (i.wf = true → ∃ t, exec i s = .next t ∧ t.st ≠ 4#3)

/-- Rule R48: `cmd_b` of a one-operand command, valid or not, cannot change the outcome. -/
def Obligations.SecondOperandOfOneOperandCommandIsIgnored : Prop :=
  ∀ op ∈ [0x10#5, 0x11#5, 0x12#5, 0x13#5], ∀ (a b b' : Port) (s : State),
    execute ⟨op, a, b⟩ s = execute ⟨op, a, b'⟩ s

/-- Rule R113: a command that ends with a status other than 0 ends with 1, 3, 4 or 7, changes neither R
nor F, and completes like any other: `rsp_valid` is high and `cmd_ready` is raised. -/
def Obligations.FailedCommandChangesOnlyStatus : Prop :=
  ∀ (c : Command) (s t : State) (rest : List Pins),
    s.inFlight = none → s.host = offer c :: rest → step s = .next t → t.st ≠ 0#3 →
    t.r = s.r ∧ t.f = s.f ∧ t.st ∈ [1#3, 3#3, 4#3, 7#3] ∧
      t.outputs.rspValid = true ∧ t.outputs.cmdReady = true ∧ t.host = rest

/-- Rule R114: of several conditions the one reported is the first of ILLEGAL_OP, INVALID_INPUT,
DIV_BY_ZERO, OVERFLOW. -/
def Obligations.StatusPriorityOrder : Prop :=
  ∀ (c : Command) (s : State), ∃ t, execute c s = .next t ∧
    ((∀ i, decode c ≠ .ok i) → t.st = 7#3) ∧
    (∀ i, decode c = .ok i → i.wf = false → t.st = 4#3) ∧
    (∀ a b, decode c = .ok (.div a b) → valid a = true → valid b = true →
      (dec b).m = 0 → t.st = 3#3) ∧
    (∀ i, decode c = .ok i → i.wf = true →
      (∀ a b, i = .div a b → (dec b).m ≠ 0) →
      t.st = 0#3 ∨ (t.st = 1#3 ∧ ∃ a b, i = .add a b ∨ i = .sub a b ∨ i = .mul a b ∨ i = .div a b))

/-- Rules R15, R16, R17: the frame of every command. The comparisons leave R, the arithmetic and rounder
commands leave F, a failing command leaves both, and no command touches the handshake. -/
def Obligations.CommandFrame : Prop :=
  ∀ (i : Instr) (s t : State), exec i s = .next t →
    (writesR i = false → t.r = s.r) ∧
    (writesF i = false → t.f = s.f) ∧
    (t.st ≠ 0#3 → t.r = s.r ∧ t.f = s.f) ∧
    t.inFlight = s.inFlight ∧ t.rspValid = s.rspValid ∧ t.host = s.host ∧ t.hidden = s.hidden

/-- Rules R36, R127: no command reads the state. What it writes, and the status it ends with, are the
same from every two states. -/
def Obligations.ResultDependsOnTheCommandAlone : Prop :=
  ∀ (i : Instr) (s s' t t' : State), exec i s = .next t → exec i s' = .next t' →
    t.st = t'.st ∧
    (t.st = 0#3 → writesR i = true → t.r = t'.r) ∧
    (t.st = 0#3 → writesF i = true → t.f = t'.f)

/-! ### The machine -/

/-- Rules R13, R30, R32: a step runs the decoded command. On a free core, the command the host offers,
from the state after its acceptance; on a busy core that is not reset, the command in progress. That
one step runs a command to its completion, and that it does so for a command in progress while the
host's row waits, is the model's choice (log entry 7, DESIGN CHOICE). -/
def Obligations.StepRunsTheDecodedCommand : Prop :=
  (∀ (s : State) (p : Pins) (rest : List Pins) (i : Instr),
    s.inFlight = none → s.host = p :: rest → p.rst = false → p.cmdValid = true →
    decode p.cmd = .ok i →
    ∃ t, exec i (State.accept p.cmd { s with host := rest }) = .next t ∧ step s = .next t.complete) ∧
  (∀ (s : State) (c : InFlight) (i : Instr),
    s.inFlight = some c → (∀ p ∈ s.host.head?, p.rst = false) → decode c.cmd = .ok i →
    ∃ t, exec i s = .next t ∧ step s = .next t.complete)

/-- Rules R31, R113: every command completes. From every state a step answers a next state in which no
command is in progress; `rsp_valid` is high in it exactly when a command ran: the core was not reset,
and a command was in progress or was offered to the free core. That a step leaves out the edges in
between is the model's choice (log entry 7, DESIGN CHOICE). -/
def Obligations.StepAlwaysCompletes : Prop :=
  ∀ s : State, ∃ t, step s = .next t ∧ t.inFlight = none ∧
    (t.rspValid = true ↔
      (∀ p ∈ s.host.head?, p.rst = false) ∧
      (s.inFlight.isSome = true ∨ ∃ p ∈ s.host.head?, p.cmdValid = true))

/-- Rules R23, R126: what reset leaves, and what the host sees of it. -/
def Obligations.ResetStateValues : Prop :=
  State.reset.r = 0#128 ∧ State.reset.st = 0#3 ∧ State.reset.f = false ∧ State.reset.busy = false ∧
  State.reset.outputs =
    { cmdReady := true, rspValid := false, res := 0#128, status := 0#3, flag := false } ∧
  dec State.reset.r = ⟨false, 0, 0⟩

/-- Rules R124, R125: at an edge with `rst = 1` the registers take their reset values whatever the core
was doing and whatever is on the command pins, no command is accepted, and `rsp_valid` is low; so
does a step at which the host drives `rst`. -/
def Obligations.ResetEdgeAbandonsEverything : Prop :=
  ∀ (p : Pins) (s : State), p.rst = true →
    (∃ t, clockEdge p s = .next t ∧ t.r = 0#128 ∧ t.st = 0#3 ∧ t.f = false ∧
      t.busy = false ∧ t.rspValid = false) ∧
    ∀ rest, s.host = p :: rest →
      ∃ t, step s = .next t ∧ t.r = 0#128 ∧ t.st = 0#3 ∧ t.f = false ∧
        t.busy = false ∧ t.rspValid = false ∧ t.host = rest

/-- Rules R23, R24: the invariant holds at reset. -/
def Obligations.ResetSatisfiesInvariant : Prop := State.reset.Inv

/-- Rule R24: every step keeps R a valid Decimal and ST one of 0, 1, 3, 4, 7. -/
def Obligations.StepKeepsInvariant : Prop :=
  ∀ s t : State, s.Inv → step s = .next t → t.Inv

/-- Rules R24, R31: so does every edge of the clock, whatever is on the pins. -/
def Obligations.ClockEdgeKeepsInvariant : Prop :=
  ∀ (p : Pins) (s : State), s.Inv → ∃ t, clockEdge p s = .next t ∧ t.Inv

/-- Rules R28, R30, R31, R131: between acceptance and completion R, ST and F hold, the core is not
ready, and the command pins do not matter. Rules R36, R122: an edge at which nothing is in progress,
`rst` is low and no command is offered leaves R, ST and F as they were, with `rsp_valid` low and the
core ready, whatever stands on the other command pins; so does every run of such edges, however long;
and so does a step at which the host presents nothing or such a row (the step and a silent host: the
model's choice, log entries 1 and 7, DESIGN CHOICE). -/
def Obligations.BusyOrIdleCoreHoldsItsOutputs : Prop :=
  (∀ (s : State) (c : InFlight) (p : Pins), s.inFlight = some c → 1 < c.wait → p.rst = false →
    ∃ t, clockEdge p s = .next t ∧
      t.outputs = { s.outputs with cmdReady := false, rspValid := false } ∧
      t.inFlight = some { c with wait := c.wait - 1 } ∧
      ∀ q : Pins, q.rst = false → clockEdge q s = .next t) ∧
  (∀ (s : State) (p : Pins), s.inFlight = none → p.rst = false → p.cmdValid = false →
    ∃ t, clockEdge p s = .next t ∧
      t.outputs = { s.outputs with cmdReady := true, rspValid := false } ∧
      t.inFlight = none ∧
      ∀ q : Pins, q.rst = false → q.cmdValid = false → clockEdge q s = .next t) ∧
  (∀ (ps : List Pins) (s : State), s.inFlight = none →
    (∀ p ∈ ps, p.rst = false ∧ p.cmdValid = false) →
    ∃ t, clockRun ps s = .next t ∧
      t.outputs = { s.outputs with cmdReady := true, rspValid := s.rspValid && ps.isEmpty } ∧
      t.inFlight = none) ∧
  (∀ s : State, s.inFlight = none →
    (∀ p ∈ s.host.head?, p.rst = false ∧ p.cmdValid = false) →
    ∃ t, step s = .next t ∧
      t.outputs = { s.outputs with cmdReady := true, rspValid := false } ∧
      t.inFlight = none ∧ t.host = s.host.tail)

/-- Rule R31: a command accepted at an edge completes `LAT` edges later, `1 ≤ LAT ≤ LAT_MAX`, if
`rst` stays low; until then the outputs hold; after it they are those of the one atomic step; and
`rsp_valid` is high for that one cycle only. That the atomic step is one transaction without time is
the model's choice (log entry 7, DESIGN CHOICE). -/
def Obligations.ClockedCommandMatchesStep : Prop :=
  ∀ (s : State) (p : Pins) (ps : List Pins),
    s.inFlight = none → p.rst = false → p.cmdValid = true → (∀ q ∈ ps, q.rst = false) →
    1 ≤ Config.lat p.cmd ∧ Config.lat p.cmd ≤ Config.latMax ∧
    (ps.length < Config.lat p.cmd →
      ∃ t, clockRun (p :: ps) s = .next t ∧
        t.outputs = { s.outputs with cmdReady := false, rspValid := false }) ∧
    (ps.length = Config.lat p.cmd →
      ∃ t u, clockRun (p :: ps) s = .next t ∧ step { s with host := [p] } = .next u ∧
        t.outputs = u.outputs ∧ t.outputs.rspValid = true ∧ t.outputs.cmdReady = true ∧
        ∀ q : Pins, q.rst = false → ∃ w, clockEdge q t = .next w ∧ w.outputs.rspValid = false)

/-- Rules R32, R134: the state after a sequence of commands is the fold of `exec` over it: stepping the
machine once for each command leaves the R, ST and F of `exec(... exec(s0, c1) ..., cn)`. That the
commands stand in the host's list and that each takes one step is the model's choice (log entries 1
and 7, DESIGN CHOICE). -/
def Obligations.CommandSequenceIsTheFoldOfExec : Prop :=
  ∀ (cs : List Command) (s : State), s.inFlight = none → s.host = cs.map offer →
    ∃ t u : State, Host.Core.run Sys2Proof.core cs.length s = .next t ∧ executeAll cs s = .next u ∧
      t.r = u.r ∧ t.st = u.st ∧ t.f = u.f ∧ t.inFlight = none ∧ t.host = []

/-- Rule R21: the hidden registers influence nothing: two states that differ only in them step to states
that differ only in them. -/
def Obligations.HiddenRegistersHaveNoInfluence : Prop :=
  ∀ (s t : State) (n : Nat), step s = .next t →
    ∃ n', step { s with hidden := n } = .next { t with hidden := n' }
end

