-- ==== Sys2Proof/Laws/Decode.lean ====
section
/-! SUPPORT. The opcode map is unambiguous and, with the reserved opcodes, covers all thirty-two. -/

namespace Sys2Proof

/-- No two rows of the map compare equal to one opcode. -/
theorem opcodeMap_no_overlap : opcodeMap.Pairwise (fun p q => p.op ≠ q.op) := by decide

/-- An opcode has a mnemonic exactly when it is not one of the seventeen reserved ones. -/
theorem mnemonicOf_isNone_iff (op : Opcode) : mnemonicOf op = none ↔ op ∈ reservedOpcodes := by
  revert op
  decide

/-- What the decoder can answer: the command of a row of the map, or the rejection by name. -/
theorem decode_cases (c : Command) :
    (∃ m, mnemonicOf c.op = some m ∧ decode c = .ok (Instr.build m c.a c.b)) ∨
      (c.op ∈ reservedOpcodes ∧ decode c = .error (.reservedOpcode c.op)) := by
  cases h : mnemonicOf c.op with
  | none => exact .inr ⟨(mnemonicOf_isNone_iff c.op).1 h, by simp [decode, h]⟩
  | some m => exact .inl ⟨m, rfl, by simp [decode, h]⟩

end Sys2Proof
end

