-- ==== Sys2Proof/Laws/State.lean ====
section
/-! SUPPORT. One lemma per field for each update of the state, true by `rfl`, and the same for the
reset state and the output ports. -/

namespace Sys2Proof.Machine

/-! ### `done` -/

@[simp] theorem State.done_r (v : Port) (s : State) :
    (s.done v).r = v := rfl
@[simp] theorem State.done_st (v : Port) (s : State) :
    (s.done v).st = 0#3 := rfl
@[simp] theorem State.done_f (v : Port) (s : State) :
    (s.done v).f = s.f := rfl
@[simp] theorem State.done_inFlight (v : Port) (s : State) :
    (s.done v).inFlight = s.inFlight := rfl
@[simp] theorem State.done_rspValid (v : Port) (s : State) :
    (s.done v).rspValid = s.rspValid := rfl
@[simp] theorem State.done_host (v : Port) (s : State) :
    (s.done v).host = s.host := rfl
@[simp] theorem State.done_hidden (v : Port) (s : State) :
    (s.done v).hidden = s.hidden := rfl

/-! ### `doneFlag` -/

@[simp] theorem State.doneFlag_r (b : Bool) (s : State) :
    (s.doneFlag b).r = s.r := rfl
@[simp] theorem State.doneFlag_st (b : Bool) (s : State) :
    (s.doneFlag b).st = 0#3 := rfl
@[simp] theorem State.doneFlag_f (b : Bool) (s : State) :
    (s.doneFlag b).f = b := rfl
@[simp] theorem State.doneFlag_inFlight (b : Bool) (s : State) :
    (s.doneFlag b).inFlight = s.inFlight := rfl
@[simp] theorem State.doneFlag_rspValid (b : Bool) (s : State) :
    (s.doneFlag b).rspValid = s.rspValid := rfl
@[simp] theorem State.doneFlag_host (b : Bool) (s : State) :
    (s.doneFlag b).host = s.host := rfl
@[simp] theorem State.doneFlag_hidden (b : Bool) (s : State) :
    (s.doneFlag b).hidden = s.hidden := rfl

/-! ### `doneBoth` -/

@[simp] theorem State.doneBoth_r (v : Port) (b : Bool) (s : State) :
    (s.doneBoth v b).r = v := rfl
@[simp] theorem State.doneBoth_st (v : Port) (b : Bool) (s : State) :
    (s.doneBoth v b).st = 0#3 := rfl
@[simp] theorem State.doneBoth_f (v : Port) (b : Bool) (s : State) :
    (s.doneBoth v b).f = b := rfl
@[simp] theorem State.doneBoth_inFlight (v : Port) (b : Bool) (s : State) :
    (s.doneBoth v b).inFlight = s.inFlight := rfl
@[simp] theorem State.doneBoth_rspValid (v : Port) (b : Bool) (s : State) :
    (s.doneBoth v b).rspValid = s.rspValid := rfl
@[simp] theorem State.doneBoth_host (v : Port) (b : Bool) (s : State) :
    (s.doneBoth v b).host = s.host := rfl
@[simp] theorem State.doneBoth_hidden (v : Port) (b : Bool) (s : State) :
    (s.doneBoth v b).hidden = s.hidden := rfl

/-! ### `raise` -/

@[simp] theorem State.raise_r (c : Status) (s : State) :
    (s.raise c).r = s.r := rfl
@[simp] theorem State.raise_st (c : Status) (s : State) :
    (s.raise c).st = c.code := rfl
@[simp] theorem State.raise_f (c : Status) (s : State) :
    (s.raise c).f = s.f := rfl
@[simp] theorem State.raise_inFlight (c : Status) (s : State) :
    (s.raise c).inFlight = s.inFlight := rfl
@[simp] theorem State.raise_rspValid (c : Status) (s : State) :
    (s.raise c).rspValid = s.rspValid := rfl
@[simp] theorem State.raise_host (c : Status) (s : State) :
    (s.raise c).host = s.host := rfl
@[simp] theorem State.raise_hidden (c : Status) (s : State) :
    (s.raise c).hidden = s.hidden := rfl

/-! ### `idleEdge` -/

@[simp] theorem State.idleEdge_r (s : State) :
    (s.idleEdge).r = s.r := rfl
@[simp] theorem State.idleEdge_st (s : State) :
    (s.idleEdge).st = s.st := rfl
@[simp] theorem State.idleEdge_f (s : State) :
    (s.idleEdge).f = s.f := rfl
@[simp] theorem State.idleEdge_inFlight (s : State) :
    (s.idleEdge).inFlight = s.inFlight := rfl
@[simp] theorem State.idleEdge_rspValid (s : State) :
    (s.idleEdge).rspValid = false := rfl
@[simp] theorem State.idleEdge_host (s : State) :
    (s.idleEdge).host = s.host := rfl
@[simp] theorem State.idleEdge_hidden (s : State) :
    (s.idleEdge).hidden = s.hidden + 1 := rfl

/-! ### `resetEdge` -/

@[simp] theorem State.resetEdge_r (s : State) :
    (s.resetEdge).r = 0#128 := rfl
@[simp] theorem State.resetEdge_st (s : State) :
    (s.resetEdge).st = 0#3 := rfl
@[simp] theorem State.resetEdge_f (s : State) :
    (s.resetEdge).f = false := rfl
@[simp] theorem State.resetEdge_inFlight (s : State) :
    (s.resetEdge).inFlight = none := rfl
@[simp] theorem State.resetEdge_rspValid (s : State) :
    (s.resetEdge).rspValid = false := rfl
@[simp] theorem State.resetEdge_host (s : State) :
    (s.resetEdge).host = s.host := rfl
@[simp] theorem State.resetEdge_hidden (s : State) :
    (s.resetEdge).hidden = s.hidden + 1 := rfl

/-! ### `accept` -/

@[simp] theorem State.accept_r (c : Command) (s : State) :
    (s.accept c).r = s.r := rfl
@[simp] theorem State.accept_st (c : Command) (s : State) :
    (s.accept c).st = s.st := rfl
@[simp] theorem State.accept_f (c : Command) (s : State) :
    (s.accept c).f = s.f := rfl
@[simp] theorem State.accept_inFlight (c : Command) (s : State) :
    (s.accept c).inFlight = some { cmd := c, wait := Config.lat c } := rfl
@[simp] theorem State.accept_rspValid (c : Command) (s : State) :
    (s.accept c).rspValid = false := rfl
@[simp] theorem State.accept_host (c : Command) (s : State) :
    (s.accept c).host = s.host := rfl
@[simp] theorem State.accept_hidden (c : Command) (s : State) :
    (s.accept c).hidden = s.hidden + 1 := rfl

/-! ### `complete` -/

@[simp] theorem State.complete_r (s : State) :
    (s.complete).r = s.r := rfl
@[simp] theorem State.complete_st (s : State) :
    (s.complete).st = s.st := rfl
@[simp] theorem State.complete_f (s : State) :
    (s.complete).f = s.f := rfl
@[simp] theorem State.complete_inFlight (s : State) :
    (s.complete).inFlight = none := rfl
@[simp] theorem State.complete_rspValid (s : State) :
    (s.complete).rspValid = true := rfl
@[simp] theorem State.complete_host (s : State) :
    (s.complete).host = s.host := rfl
@[simp] theorem State.complete_hidden (s : State) :
    (s.complete).hidden = s.hidden + 1 := rfl

/-! ### Reset and the outputs -/

@[simp] theorem State.reset_r : State.reset.r = 0#128 := rfl
@[simp] theorem State.reset_st : State.reset.st = 0#3 := rfl
@[simp] theorem State.reset_f : State.reset.f = false := rfl
@[simp] theorem State.reset_inFlight : State.reset.inFlight = none := rfl
@[simp] theorem State.reset_rspValid : State.reset.rspValid = false := rfl
@[simp] theorem State.reset_host : State.reset.host = [] := rfl
@[simp] theorem State.reset_hidden : State.reset.hidden = 0 := rfl

@[simp] theorem State.outputs_cmdReady (s : State) : s.outputs.cmdReady = (!s.busy) := rfl
@[simp] theorem State.outputs_rspValid (s : State) : s.outputs.rspValid = s.rspValid := rfl
@[simp] theorem State.outputs_res (s : State) : s.outputs.res = s.r := rfl
@[simp] theorem State.outputs_status (s : State) : s.outputs.status = s.st := rfl
@[simp] theorem State.outputs_flag (s : State) : s.outputs.flag = s.f := rfl

@[simp] theorem State.busy_of_none {s : State} (h : s.inFlight = none) : s.busy = false := by
  simp [State.busy, h]

@[simp] theorem State.busy_of_some {s : State} {c : InFlight} (h : s.inFlight = some c) :
    s.busy = true := by
  simp [State.busy, h]

/-- The latches of a busy core are those of the command in progress. -/
theorem State.latches_of_some {s : State} {c : InFlight} (h : s.inFlight = some c) :
    s.latches = c.cmd := by
  simp [State.latches, h]

end Sys2Proof.Machine
end

