-- ==== Sys2Proof/Laws/Units.lean ====
section
/-! SUPPORT. What each shared function of the datapath can do, said once: bounds on rounding, the
scales alignment and the searches of MUL and DIV can answer, and the cases of ADDCORE. -/

namespace Sys2Proof.Machine

/-! ### Rounding -/

@[simp] theorem rhu_zero_digits (x : Nat) : rhu x 0 = x := rfl

/-- RHU with its quotient and remainder written out (rule R67). -/
theorem rhu_succ (x k : Nat) :
    rhu x (k + 1)
      = if 10 ^ (k + 1) ≤ 2 * (x % 10 ^ (k + 1)) then x / 10 ^ (k + 1) + 1
        else x / 10 ^ (k + 1) := rfl

/-- Rounding up at most adds one to the truncated value. -/
theorem rhu_le_truncp_succ (x k : Nat) : rhu x k ≤ truncp x k + 1 := by
  cases k with
  | zero => simp [truncp]
  | succ k =>
    rw [rhu_succ, truncp]
    split_ifs <;> omega

/-- "The reduced mantissa is never larger than the one it replaces" (rule R83). -/
theorem rhu_le_self (x k : Nat) : rhu x k ≤ x := by
  cases k with
  | zero => simp
  | succ k =>
    have hp : 10 ≤ 10 ^ (k + 1) := by
      rw [pow_succ]
      have := Nat.one_le_pow k 10 (by norm_num)
      omega
    have hd := Nat.div_add_mod x (10 ^ (k + 1))
    have hq : x / 10 ^ (k + 1) ≤ 10 ^ (k + 1) * (x / 10 ^ (k + 1)) :=
      Nat.le_mul_of_pos_left _ (by omega)
    rw [rhu_succ]
    split_ifs <;> omega

/-- Rounding a mantissa stays inside 96 bits. -/
theorem rhu96_toNat (m : Mantissa) (k : Nat) : (rhu96 m k).toNat = rhu m.toNat k := by
  have := rhu_le_self m.toNat k
  have := m.isLt
  simp only [rhu96, BitVec.toNat_ofNat]
  exact Nat.mod_eq_of_lt (by omega)

theorem fits_iff (x s : Nat) : fits x s = true ↔ x ≤ Config.max96 ∧ s ≤ Config.smax := by
  simp [fits]

/-- With a divisor that is not zero the divider never reads the free value of its zero case. -/
theorem divmod192_of_ne_zero (d : BigMantissa) {v : Mantissa} (hv : v ≠ 0) :
    divmod192 d v = (BitVec.ofNat 192 (d.toNat / v.toNat), BitVec.ofNat 96 (d.toNat % v.toNat)) := by
  rw [divmod192, if_neg hv]

/-! ### Alignment -/

/-- A loop of the aligner raises the scale by some number of steps, at most the gap. -/
theorem raiseScale_scale {n : Nat} (m : BitVec n) (sc gap : Nat) :
    sc ≤ (raiseScale m sc gap).2 ∧ (raiseScale m sc gap).2 ≤ sc + gap := by
  induction gap generalizing m sc with
  | zero => simp [raiseScale]
  | succ gap ih =>
    simp only [raiseScale]
    split
    · simp
    · rename_i t _
      have := ih t (sc + 1)
      omega

@[simp] theorem raiseTo_sg (x : Triple) (target : Nat) : (raiseTo x target).sg = x.sg := rfl

/-- Raising never lowers a scale and never passes the target. -/
theorem raiseTo_scale (x : Triple) (target : Nat) :
    x.sc ≤ (raiseTo x target).sc ∧ (raiseTo x target).sc ≤ max x.sc target := by
  have := raiseScale_scale x.m x.sc (target - x.sc)
  simp only [raiseTo]
  omega

/-- The operand with the higher scale is never touched (rule R76). -/
theorem raiseTo_of_le (x : Triple) {target : Nat} (h : target ≤ x.sc) : raiseTo x target = x := by
  simp [raiseTo, Nat.sub_eq_zero_of_le h, raiseScale]

/-- Both scales stay at most the larger of the two on entry. -/
theorem align96_scale_le (x y : Triple) :
    (align96 x y).1.sc ≤ max x.sc y.sc ∧ (align96 x y).2.sc ≤ max x.sc y.sc := by
  have h1 := (raiseTo_scale x y.sc).2
  have h2 := (raiseTo_scale y x.sc).2
  simp only [align96]
  omega

/-- The common scale is one of the two scales alignment reached, the lower one. -/
theorem common_scale (x y : Triple) :
    (common x y).s = min (align96 x y).1.sc (align96 x y).2.sc := by
  simp only [common]
  split
  · simp only; omega
  · split <;> simp only <;> omega

theorem common_scale_le (x y : Triple) : (common x y).s ≤ max x.sc y.sc := by
  have := align96_scale_le x y
  rw [common_scale]
  omega

/-! ### ADDCORE -/

/-- What `basic_add` can answer: overflow at scale 0, or the common sign at the common scale or one
below it. -/
theorem basicAdd_cases (sg : Bool) (c : CommonScale) :
    (basicAdd sg c = none ∧ c.s = 0) ∨
      ∃ t, basicAdd sg c = some t ∧ t.sg = sg ∧ t.sc ≤ c.s ∧ c.s ≤ t.sc + 1 := by
  simp only [basicAdd]
  split
  · split
    · exact .inl ⟨rfl, by assumption⟩
    · exact .inr ⟨_, rfl, rfl, by simp only; omega, by simp only; omega⟩
  · exact .inr ⟨_, rfl, rfl, by simp, by simp⟩

/-- What `basic_sub` can answer: always a value at the common scale. -/
theorem basicSub_scale (sx sy : Bool) (c : CommonScale) : (basicSub sx sy c).sc = c.s := by
  simp only [basicSub]
  split <;> rfl

/-- ADDCORE's scale is never above the larger of the two on entry. -/
theorem addCore_scale_le {x y t : Triple} (h : addCore x y = some t) : t.sc ≤ max x.sc y.sc := by
  have hc := common_scale_le x y
  simp only [addCore] at h
  split at h
  · rcases basicAdd_cases x.sg (common x y) with ⟨hn, _⟩ | ⟨u, hu, _, hle, _⟩
    · simp [hn] at h
    · have : u = t := by simpa [hu] using h
      subst this
      omega
  · have := basicSub_scale x.sg y.sg (common x y)
    have ht : basicSub x.sg y.sg (common x y) = t := by simpa using h
    rw [← ht]
    omega

/-! ### The searches of MUL and DIV -/

/-- The search of MUL answers a fitting rounded product at a scale not above its start. -/
theorem reduceProduct_some {p s t m u : Nat} (h : reduceProduct p s t = some (m, u)) :
    u ≤ t ∧ m = rhu p (s - u) ∧ fits m u = true := by
  induction t with
  | zero =>
    simp only [reduceProduct] at h
    split at h
    · simp only [Option.some.injEq, Prod.mk.injEq] at h
      obtain ⟨rfl, rfl⟩ := h
      exact ⟨le_rfl, by simp, by assumption⟩
    · simp at h
  | succ t ih =>
    simp only [reduceProduct] at h
    split at h
    · simp only [Option.some.injEq, Prod.mk.injEq] at h
      obtain ⟨rfl, rfl⟩ := h
      exact ⟨le_rfl, rfl, by assumption⟩
    · have := ih h
      exact ⟨by omega, this.2⟩

/-- A round of DIV answers only a mantissa that fits. -/
theorem quotientAt_some {x y : Triple} {t m : Nat} (h : quotientAt x y t = some m) :
    fits m t = true := by
  simp only [quotientAt] at h
  split at h
  · simp at h
  · split at h
    · rename_i hf
      rw [Option.some.injEq] at h
      exact h ▸ hf
    · simp at h

/-- The search of DIV answers the quotient of a round at a scale between `ea - eb` and its start. -/
theorem divideFrom_some {x y : Triple} {t m u : Nat} (h : divideFrom x y t = some (m, u)) :
    u ≤ t ∧ x.sc - y.sc ≤ u ∧ quotientAt x y u = some m := by
  induction t with
  | zero =>
    simp only [divideFrom] at h
    split at h
    · simp at h
    · simp only [Option.map_eq_some_iff, Prod.mk.injEq] at h
      obtain ⟨_, hq, rfl, rfl⟩ := h
      exact ⟨le_rfl, by omega, hq⟩
  | succ t ih =>
    simp only [divideFrom] at h
    split at h
    · simp at h
    · split at h
      · rename_i hq
        simp only [Option.some.injEq, Prod.mk.injEq] at h
        obtain ⟨rfl, rfl⟩ := h
        exact ⟨le_rfl, by omega, hq⟩
      · have := ih h
        exact ⟨by omega, this.2⟩

end Sys2Proof.Machine
end

