-- ==== Sys2Proof/Laws/Ops.lean ====
section
/-! SUPPORT. What the shared ends of a command can do, and from them one inversion lemma for `exec`. -/

namespace Sys2Proof.Machine

/-- The operand check of a CMD1 command: it raises INVALID_INPUT, or goes on with a valid operand. -/
theorem withOperand_cases (a : Port) (s : State) (k : Triple → State) :
    (valid a = false ∧ withOperand a s k = .next (s.raise .invalidInput)) ∨
      (valid a = true ∧ withOperand a s k = .next (k (dec a))) := by
  cases h : valid a <;> simp [withOperand, h]

/-- The operand check of a CMD2 command. -/
theorem withOperands_cases (a b : Port) (s : State) (k : Triple → Triple → State) :
    ((valid a = false ∨ valid b = false) ∧ withOperands a b s k = .next (s.raise .invalidInput)) ∨
      (valid a = true ∧ valid b = true ∧ withOperands a b s k = .next (k (dec a) (dec b))) := by
  cases ha : valid a <;> cases hb : valid b <;> simp [withOperands, ha, hb]

/-- A valid Decimal has a scale of at most 28 (rule R38). -/
theorem scale_le_of_valid {d : Port} (h : valid d = true) : (dec d).sc ≤ Config.smax := by
  simp only [valid, Bool.and_eq_true, decide_eq_true_eq] at h
  exact h.2

/-- How a command can leave the state: it fails with a status of rule R110, or ends with status 0
having written a Decimal inside the envelope, the flag, or both. -/
inductive Ends (s : State) : State → Prop where
  | failed (c : Status) (h : c = .overflow ∨ c = .divByZero ∨ c = .invalidInput) :
      Ends s (s.raise c)
  | decimal (v : Triple) (h : v.sc ≤ Config.smax) : Ends s (s.done (enc v))
  | flag (b : Bool) : Ends s (s.doneFlag b)
  | both (v : Triple) (b : Bool) (h : v.sc ≤ Config.smax) : Ends s (s.doneBoth (enc v) b)

theorem endSum_ends (s : State) {x y : Triple} (hx : x.sc ≤ Config.smax) (hy : y.sc ≤ Config.smax) :
    Ends s (s.endSum (addCore x y)) := by
  cases h : addCore x y with
  | none => exact .failed .overflow (.inl rfl)
  | some t => exact .decimal t (by have := addCore_scale_le h; omega)

theorem endScaled_ends (s : State) (sg : Bool) {v : Option (Nat × Nat)}
    (h : ∀ m t, v = some (m, t) → t ≤ Config.smax) : Ends s (s.endScaled sg v) := by
  cases v with
  | none => exact .failed .overflow (.inl rfl)
  | some mt => exact .decimal _ (h mt.1 mt.2 rfl)

theorem withOperand_ends (a : Port) (s : State) {k : Triple → State}
    (hk : (dec a).sc ≤ Config.smax → Ends s (k (dec a))) :
    ∃ t, withOperand a s k = .next t ∧ Ends s t := by
  rcases withOperand_cases a s k with ⟨_, he⟩ | ⟨ha, he⟩
  · exact ⟨_, he, .failed .invalidInput (.inr (.inr rfl))⟩
  · exact ⟨_, he, hk (scale_le_of_valid ha)⟩

theorem withOperands_ends (a b : Port) (s : State) {k : Triple → Triple → State}
    (hk : (dec a).sc ≤ Config.smax → (dec b).sc ≤ Config.smax → Ends s (k (dec a) (dec b))) :
    ∃ t, withOperands a b s k = .next t ∧ Ends s t := by
  rcases withOperands_cases a b s k with ⟨_, he⟩ | ⟨ha, hb, he⟩
  · exact ⟨_, he, .failed .invalidInput (.inr (.inr rfl))⟩
  · exact ⟨_, he, hk (scale_le_of_valid ha) (scale_le_of_valid hb)⟩

theorem compareWith_ends (test : Ordering → Bool) (a b : Port) (s : State) :
    ∃ t, compareWith test a b s = .next t ∧ Ends s t :=
  withOperands_ends a b s fun _ _ => .flag _

/-- Every command answers a next state, in one of the ways of `Ends`. -/
theorem exec_ends (i : Instr) (s : State) : ∃ t, exec i s = .next t ∧ Ends s t := by
  cases i with
  | add a b =>
    simp only [exec, execAdd]
    exact withOperands_ends a b s fun ha hb => endSum_ends s ha hb
  | sub a b =>
    simp only [exec, execSub]
    exact withOperands_ends a b s fun ha hb =>
      endSum_ends (y := { dec b with sg := !(dec b).sg }) s ha hb
  | mul a b =>
    simp only [exec, execMul]
    refine withOperands_ends a b s fun _ _ => endScaled_ends s _ fun m t h => ?_
    have := (reduceProduct_some h).1
    omega
  | div a b =>
    simp only [exec, execDiv]
    refine withOperands_ends a b s fun ha hb => ?_
    split
    · exact .failed .divByZero (.inr (.inl rfl))
    · split
      · exact .decimal _ (by simp only; omega)
      · exact endScaled_ends s _ fun m t h => (divideFrom_some h).1
  | cmpeq a b => exact compareWith_ends flagEq a b s
  | cmpne a b => exact compareWith_ends flagNe a b s
  | cmplt a b => exact compareWith_ends flagLt a b s
  | cmple a b => exact compareWith_ends flagLe a b s
  | cmpgt a b => exact compareWith_ends flagGt a b s
  | cmpge a b => exact compareWith_ends flagGe a b s
  | trunc a =>
    simp only [exec, execTrunc]
    exact withOperand_ends a s fun _ => .decimal _ (Nat.zero_le _)
  | floor a =>
    simp only [exec, execFloor]
    exact withOperand_ends a s fun _ => .decimal _ (Nat.zero_le _)
  | round a =>
    simp only [exec, execRound]
    exact withOperand_ends a s fun _ => .decimal _ (Nat.zero_le _)
  | neg a =>
    simp only [exec, execNeg]
    exact withOperand_ends a s fun ha => .decimal { dec a with sg := !(dec a).sg } ha
  | align a b =>
    simp only [exec, execAlign]
    refine withOperands_ends a b s fun ha hb => .both _ _ ?_
    have := (align96_scale_le (dec a) (dec b)).1
    omega

end Sys2Proof.Machine
end

