-- ==== Sys2Proof/Laws/PerInstr.lean ====
section
/-! SUPPORT. Facts about every instruction as syntax, one lemma per constructor. -/

namespace Sys2Proof.Laws.LegalOpcode

/-- The encoder gives the instruction an opcode of the map, never a reserved one (rules R45, R46). -/
def Statement (i : Instr) : Prop := (encode i).op ∉ reservedOpcodes

theorem add (a b : Port) : Statement (.add a b) := by simp only [Statement, encode]; decide
theorem sub (a b : Port) : Statement (.sub a b) := by simp only [Statement, encode]; decide
theorem mul (a b : Port) : Statement (.mul a b) := by simp only [Statement, encode]; decide
theorem div (a b : Port) : Statement (.div a b) := by simp only [Statement, encode]; decide
theorem cmpeq (a b : Port) : Statement (.cmpeq a b) := by simp only [Statement, encode]; decide
theorem cmpne (a b : Port) : Statement (.cmpne a b) := by simp only [Statement, encode]; decide
theorem cmplt (a b : Port) : Statement (.cmplt a b) := by simp only [Statement, encode]; decide
theorem cmple (a b : Port) : Statement (.cmple a b) := by simp only [Statement, encode]; decide
theorem cmpgt (a b : Port) : Statement (.cmpgt a b) := by simp only [Statement, encode]; decide
theorem cmpge (a b : Port) : Statement (.cmpge a b) := by simp only [Statement, encode]; decide
theorem trunc (a : Port) : Statement (.trunc a) := by simp only [Statement, encode]; decide
theorem floor (a : Port) : Statement (.floor a) := by simp only [Statement, encode]; decide
theorem round (a : Port) : Statement (.round a) := by simp only [Statement, encode]; decide
theorem neg (a : Port) : Statement (.neg a) := by simp only [Statement, encode]; decide
theorem align (a b : Port) : Statement (.align a b) := by simp only [Statement, encode]; decide

end Sys2Proof.Laws.LegalOpcode
end

