-- ==== Sys2Proof/Laws/Step.lean ====
section
/-! SUPPORT. One inversion lemma each for executing a command, a step, and an edge of the clock. -/

namespace Sys2Proof.Machine

/-- Executing a command answers a next state: as `exec` does, or ILLEGAL_OP. -/
theorem execute_ends (c : Command) (s : State) :
    ∃ t, execute c s = .next t ∧ (Ends s t ∨ (c.op ∈ reservedOpcodes ∧ t = s.raise .illegalOp)) := by
  rcases decode_cases c with ⟨m, _, hd⟩ | ⟨hop, hd⟩
  · obtain ⟨t, ht, he⟩ := exec_ends (Instr.build m c.a c.b) s
    exact ⟨t, by simp [execute, hd, ht], .inl he⟩
  · exact ⟨_, by simp [execute, hd], .inr ⟨hop, rfl⟩⟩

/-- A completion edge is the command's effect and the handshake's. -/
theorem finish_of_execute {c : Command} {s t : State} (h : execute c s = .next t) :
    finish c s = .next t.complete := by
  simp [finish, h]

/-- Everything a step can do: an idle edge, a reset edge, the completion of the command in progress,
or the host's next command from acceptance to completion. -/
inductive StepCase (s : State) : State → Prop where
  | idle (h : s.inFlight = none) (rest : List Pins)
      (hh : (s.host = [] ∧ rest = []) ∨
        ∃ p, s.host = p :: rest ∧ p.rst = false ∧ p.cmdValid = false) :
      StepCase s (State.idleEdge { s with host := rest })
  | reset (p : Pins) (rest : List Pins) (hh : s.host = p :: rest) (hr : p.rst = true) :
      StepCase s (State.resetEdge { s with host := rest })
  | completed (c : InFlight) (h : s.inFlight = some c) (hh : ∀ p ∈ s.host.head?, p.rst = false)
      (t : State) (ht : execute c.cmd s = .next t) : StepCase s t.complete
  | ran (h : s.inFlight = none) (p : Pins) (rest : List Pins) (hh : s.host = p :: rest)
      (hr : p.rst = false) (hv : p.cmdValid = true) (t : State)
      (ht : execute p.cmd (State.accept p.cmd { s with host := rest }) = .next t) :
      StepCase s t.complete

theorem step_cases (s : State) : ∃ t, step s = .next t ∧ StepCase s t := by
  cases hh : s.host with
  | nil =>
    cases hf : s.inFlight with
    | none =>
      refine ⟨s.idleEdge, by simp [step, transact, hh, hf], ?_⟩
      have : s = { s with host := [] } := by rw [← hh]
      rw [this]
      exact .idle (by simpa using hf) [] (.inl ⟨rfl, rfl⟩)
    | some c =>
      obtain ⟨t, ht, _⟩ := execute_ends c.cmd s
      exact ⟨_, by simp [step, transact, hh, hf, finish_of_execute ht],
        .completed c hf (by simp [hh]) t ht⟩
  | cons p rest =>
    cases hr : p.rst with
    | true =>
      refine ⟨_, ?_, .reset p rest hh hr⟩
      cases hf : s.inFlight <;> simp [step, transact, hh, hf, hr]
    | false =>
      cases hf : s.inFlight with
      | none =>
        cases hv : p.cmdValid with
        | false =>
          exact ⟨_, by simp [step, transact, takeRow, hh, hf, hr, hv],
            .idle hf rest (.inr ⟨p, hh, hr, hv⟩)⟩
        | true =>
          obtain ⟨t, ht, _⟩ := execute_ends p.cmd (State.accept p.cmd { s with host := rest })
          exact ⟨_, by
            simp only [step, transact, takeRow, hh, hf, hr, hv]
            simpa [hf] using finish_of_execute ht, .ran hf p rest hh hr hv t ht⟩
      | some c =>
        obtain ⟨t, ht, _⟩ := execute_ends c.cmd s
        exact ⟨_, by simp [step, transact, hh, hf, hr, finish_of_execute ht],
          .completed c hf (by simp [hh, hr]) t ht⟩

/-- Everything an edge of the clock can do. -/
inductive EdgeCase (p : Pins) (s : State) : State → Prop where
  | reset (hr : p.rst = true) : EdgeCase p s s.resetEdge
  | idle (hr : p.rst = false) (h : s.inFlight = none) (hv : p.cmdValid = false) :
      EdgeCase p s s.idleEdge
  | accepted (hr : p.rst = false) (h : s.inFlight = none) (hv : p.cmdValid = true) :
      EdgeCase p s (s.accept p.cmd)
  | waiting (hr : p.rst = false) (c : InFlight) (h : s.inFlight = some c) (hw : 1 < c.wait) :
      EdgeCase p s { s.idleEdge with inFlight := some { c with wait := c.wait - 1 } }
  | completed (hr : p.rst = false) (c : InFlight) (h : s.inFlight = some c) (hw : c.wait ≤ 1)
      (t : State) (ht : execute c.cmd s = .next t) : EdgeCase p s t.complete

theorem clockEdge_cases (p : Pins) (s : State) : ∃ t, clockEdge p s = .next t ∧ EdgeCase p s t := by
  cases hr : p.rst with
  | true => exact ⟨_, by simp [clockEdge, hr], .reset hr⟩
  | false =>
    cases hf : s.inFlight with
    | none =>
      cases hv : p.cmdValid with
      | false => exact ⟨_, by simp [clockEdge, hr, hf, hv], .idle hr hf hv⟩
      | true => exact ⟨_, by simp [clockEdge, hr, hf, hv], .accepted hr hf hv⟩
    | some c =>
      by_cases hw : c.wait ≤ 1
      · obtain ⟨t, ht, _⟩ := execute_ends c.cmd s
        exact ⟨_, by simp [clockEdge, hr, hf, hw, finish_of_execute ht], .completed hr c hf hw t ht⟩
      · exact ⟨_, by simp [clockEdge, hr, hf, hw], .waiting hr c hf (by omega)⟩

/-- The latency is at least 1 and at most `LAT_MAX`, whatever the implementation chose (rule R7). -/
theorem lat_bounds (c : Command) : 1 ≤ Config.lat c ∧ Config.lat c ≤ Config.latMax := by
  simp only [Config.lat, Config.latMax]
  omega

end Sys2Proof.Machine
end

