-- ==== Sys2Proof/Tests/Slice0.lean ====
section
/-! SUPPORT. Tests. Expected values come from the vectors of `95_test_vectors.md` and
`96_test_vectors_commands.md`, whose ids the comments give, or from the rule a comment names. Then one
witness for the hypotheses of each statement. -/

namespace Sys2Proof.Tests

open Sys2Proof Sys2Proof.Machine

/-- The start state of `96_test_vectors_commands.md` section 3.9: R = (0, 30, 1), ST = 0, F = 1. -/
def start : State :=
  { State.reset with r := 0x0001000000000000000000000000001E#128, f := true }

/-- The same with ST = 4 and F = 0, where a test has to see F set or ST cleared. -/
def startClear : State :=
  { State.reset with r := 0x0001000000000000000000000000001E#128, st := 4#3 }

/-- The host of `s` offers the command next. -/
def offering (s : State) (c : Command) : State := { s with host := [offer c] }

/-- R, ST and F after one step. -/
def after (s : State) (c : Command) : Option (Port × StatusCode × Bool) :=
  match step (offering s c) with
  | .next t => some (t.r, t.st, t.f)
  | .fault _ => none
  | .refused _ => none

/-! ### Decoding: each command, its opcode written out from rule R45 -/

theorem test_decode_add :
    decode ⟨0b00000#5, 0x80020000000000000000000000000064#128,
        0x00010000000000000000000000000019#128⟩
      = .ok (.add 0x80020000000000000000000000000064#128 0x00010000000000000000000000000019#128) := rfl
theorem test_decode_sub :
    decode ⟨0b00001#5, 0x80020000000000000000000000000064#128,
        0x00010000000000000000000000000019#128⟩
      = .ok (.sub 0x80020000000000000000000000000064#128 0x00010000000000000000000000000019#128) := rfl
theorem test_decode_mul :
    decode ⟨0b00010#5, 0x80020000000000000000000000000064#128,
        0x00010000000000000000000000000019#128⟩
      = .ok (.mul 0x80020000000000000000000000000064#128 0x00010000000000000000000000000019#128) := rfl
theorem test_decode_div :
    decode ⟨0b00011#5, 0x80020000000000000000000000000064#128,
        0x00010000000000000000000000000019#128⟩
      = .ok (.div 0x80020000000000000000000000000064#128 0x00010000000000000000000000000019#128) := rfl
theorem test_decode_cmpeq :
    decode ⟨0b01000#5, 0x80020000000000000000000000000064#128,
        0x00010000000000000000000000000019#128⟩
      = .ok (.cmpeq 0x80020000000000000000000000000064#128 0x00010000000000000000000000000019#128) := rfl
theorem test_decode_cmpne :
    decode ⟨0b01001#5, 0x80020000000000000000000000000064#128,
        0x00010000000000000000000000000019#128⟩
      = .ok (.cmpne 0x80020000000000000000000000000064#128 0x00010000000000000000000000000019#128) := rfl
theorem test_decode_cmplt :
    decode ⟨0b01010#5, 0x80020000000000000000000000000064#128,
        0x00010000000000000000000000000019#128⟩
      = .ok (.cmplt 0x80020000000000000000000000000064#128 0x00010000000000000000000000000019#128) := rfl
theorem test_decode_cmple :
    decode ⟨0b01011#5, 0x80020000000000000000000000000064#128,
        0x00010000000000000000000000000019#128⟩
      = .ok (.cmple 0x80020000000000000000000000000064#128 0x00010000000000000000000000000019#128) := rfl
theorem test_decode_cmpgt :
    decode ⟨0b01100#5, 0x80020000000000000000000000000064#128,
        0x00010000000000000000000000000019#128⟩
      = .ok (.cmpgt 0x80020000000000000000000000000064#128 0x00010000000000000000000000000019#128) := rfl
theorem test_decode_cmpge :
    decode ⟨0b01101#5, 0x80020000000000000000000000000064#128,
        0x00010000000000000000000000000019#128⟩
      = .ok (.cmpge 0x80020000000000000000000000000064#128 0x00010000000000000000000000000019#128) := rfl
theorem test_decode_trunc :
    decode ⟨0b10000#5, 0x80020000000000000000000000000064#128,
        0x00010000000000000000000000000019#128⟩
      = .ok (.trunc 0x80020000000000000000000000000064#128) := rfl
theorem test_decode_floor :
    decode ⟨0b10001#5, 0x80020000000000000000000000000064#128,
        0x00010000000000000000000000000019#128⟩
      = .ok (.floor 0x80020000000000000000000000000064#128) := rfl
theorem test_decode_round :
    decode ⟨0b10010#5, 0x80020000000000000000000000000064#128,
        0x00010000000000000000000000000019#128⟩
      = .ok (.round 0x80020000000000000000000000000064#128) := rfl
theorem test_decode_neg :
    decode ⟨0b10011#5, 0x80020000000000000000000000000064#128,
        0x00010000000000000000000000000019#128⟩
      = .ok (.neg 0x80020000000000000000000000000064#128) := rfl
theorem test_decode_align :
    decode ⟨0b11000#5, 0x80020000000000000000000000000064#128,
        0x00010000000000000000000000000019#128⟩
      = .ok (.align 0x80020000000000000000000000000064#128 0x00010000000000000000000000000019#128) := rfl

/-- The number `{cmd_b, cmd_a, cmd_op}` (log entry 2): `ADD 1.00, 2.5` of AD1. -/
theorem test_table_word_fields :
    decodeTableWord 256 (0x00010000000000000000000000000019 * 2 ^ 133
        + 0x00020000000000000000000000000064 * 2 ^ 5 + 0x00)
      = some (.add 0x00020000000000000000000000000064#128 0x00010000000000000000000000000019#128) := by
  decide

/-- A row of the table alone: DIV with both operands zero. -/
theorem test_table_word_opcode_only : decodeTableWord 8 0x03 = some (.div 0 0) := by decide

/-- Rule R46: a reserved opcode is rejected by name. -/
theorem test_decode_reserved :
    decode ⟨0b11111#5, 0, 0⟩ = .error (.reservedOpcode 0b11111#5) := rfl

/-- The first step after reset with a word placed: DIV 0, 0 raises 3 (DI7). -/
theorem test_first_step_runs_the_placed_word :
    (match step (State.reset.withFetchWord 8 0x03) with
      | .next t => t.st == 3#3 && t.rspValid && t.inFlight.isNone
      | .fault _ => false
      | .refused _ => false) = true := by decide

/-! ### The format (rule R40; EN9, EN11, EN12, EN14 to EN18) -/

theorem test_enc_every_field : enc ⟨true, BitVec.ofNat 96 Config.max96, 28⟩ = 0x801C0000FFFFFFFFFFFFFFFFFFFFFFFF#128 := by
  decide
theorem test_enc_word_order : enc ⟨false, BitVec.ofNat 96 (2 ^ 64), 0⟩ = 0x00000000000000010000000000000000#128 := by
  decide
theorem test_dec_fields : dec 0x80010000000000000000000000000019#128 = ⟨true, 25, 1⟩ := by decide

/-! ### Well-formedness: a term that each check refuses -/

theorem test_wf_accepts : (Instr.add 0x801C0000FFFFFFFFFFFFFFFFFFFFFFFF#128 0).wf = true := by decide
theorem test_wf_scale_29 : (Instr.trunc 0x001D0000000000000000000000000000#128).wf = false := by decide
theorem test_wf_bit_96 : (Instr.neg 0x00000001000000000000000000000000#128).wf = false := by decide
theorem test_wf_bit_111 : (Instr.neg 0x00008000000000000000000000000000#128).wf = false := by decide
theorem test_wf_bit_120 : (Instr.floor 0x01000000000000000000000000000000#128).wf = false := by decide
theorem test_wf_bit_126 : (Instr.round 0x40000000000000000000000000000000#128).wf = false := by decide
theorem test_wf_second_operand : (Instr.align 0 0x00FF0000000000000000000000000000#128).wf = false := by
  decide
theorem test_wf_first_operand : (Instr.cmplt 0x01000000000000000000000000000000#128 0).wf = false := by
  decide

/-- A literal needs a digit before the point (rule R52). -/
theorem test_wf_literal_no_digit : (Operand.literal false [] [5]).wf = false := by decide
/-- At most 28 digits after the point (rule R52). -/
theorem test_wf_literal_29_places : (Operand.literal false [0] (List.replicate 29 0)).wf = false := by
  decide
/-- A mantissa of at most MAX96 (rule R52): 2^96 is refused. -/
theorem test_wf_literal_too_large :
    (Operand.literal false
      [7, 9, 2, 2, 8, 1, 6, 2, 5, 1, 4, 2, 6, 4, 3, 3, 7, 5, 9, 3, 5, 4, 3, 9, 5, 0, 3, 3, 6] []).wf
      = false := by decide
theorem test_wf_triple_mantissa : (Operand.triple false (2 ^ 96) 0).wf = false := by decide
theorem test_wf_triple_scale : (Operand.triple false 0 29).wf = false := by decide
theorem test_wf_hex : (Operand.hex (2 ^ 128)).wf = false := by decide
theorem test_wf_line_one_operand_short : (Line.mk .add [.hex 0]).wf = false := by decide
theorem test_wf_line_one_operand_too_many : (Line.mk .neg [.hex 0, .hex 0]).wf = false := by decide
theorem test_wf_line_bad_operand : (Line.mk .neg [.triple false 0 29]).wf = false := by decide

/-- `ADD 1.00, 2.5` and `NEG -0.0` (rules R51, R52). -/
theorem test_assemble_add :
    (Line.mk .add [.literal false [1] [0, 0], .literal false [2] [5]]).assemble
      = some (.add 0x00020000000000000000000000000064#128 0x00010000000000000000000000000019#128) := by
  decide
theorem test_assemble_neg :
    (Line.mk .neg [.literal true [0] [0]]).assemble
      = some (.neg 0x80010000000000000000000000000000#128) := by decide

/-! ### One step of each command -/

/-- AD32 -/
theorem test_add_stall_then_carry :
    after start ⟨0x00#5, 0x800200000000000000000000000000F5#128, 0x80010000FFFFFFFFFFFFFFFFFFFFFFFF#128⟩
      = some (0x8000000019999999999999999999999D#128, 0#3, true) := by decide
/-- AD21 -/
theorem test_add_opposite_signs_after_stall :
    after start ⟨0x00#5, 0x0000000019999999999999999999999A#128, 0x80010000000000000000000000000005#128⟩
      = some (0x00000000199999999999999999999999#128, 0#3, true) := by decide
/-- AD22 -/
theorem test_sub_larger_subtrahend :
    after start ⟨0x01#5, 0x00020000000000000000000000000064#128, 0x00010000000000000000000000000019#128⟩
      = some (0x80020000000000000000000000000096#128, 0#3, true) := by decide
/-- AD28 -/
theorem test_sub_overflow :
    after start ⟨0x01#5, 0x80000000FFFFFFFFFFFFFFFFFFFFFFFF#128, 0x00000000000000000000000000000001#128⟩
      = some (0x0001000000000000000000000000001E#128, 1#3, true) := by decide
/-- MU16 -/
theorem test_mul_drops_29_digits :
    after start ⟨0x02#5, 0x00140000FFFFFFFFFFFFFFFFFFFFFFFF#128, 0x00140000FFFFFFFFFFFFFFFFFFFFFFFF#128⟩
      = some (0x000B0000CAD2F7F5359A3B3E096EE456#128, 0#3, true) := by decide
/-- MU15 -/
theorem test_mul_one_rounding :
    after start ⟨0x02#5, 0x000200000000000000000000000000F5#128, 0x001C0000000000000000000000000001#128⟩
      = some (0x001C0000000000000000000000000002#128, 0#3, true) := by decide
/-- DI4 -/
theorem test_div_lower_scale :
    after start ⟨0x03#5, 0x00000000000000000000000000000064#128, 0x00000000000000000000000000000003#128⟩
      = some (0x001B00006BB4AFE4CF2607EE35555555#128, 0#3, true) := by decide
/-- DI2 -/
theorem test_div_rounds_up :
    after start ⟨0x03#5, 0x00000000000000000000000000000002#128, 0x00000000000000000000000000000003#128⟩
      = some (0x001C0000158A8994296E01960AAAAAAB#128, 0#3, true) := by decide
/-- CM1 -/
theorem test_cmpeq_zeros :
    after startClear ⟨0x08#5, 0x00020000000000000000000000000000#128, 0x80010000000000000000000000000000#128⟩
      = some (0x0001000000000000000000000000001E#128, 0#3, true) := by decide
/-- CM14 -/
theorem test_cmpeq_stall_is_not_equal :
    after start ⟨0x08#5, 0x00010000FFFFFFFFFFFFFFFFFFFFFFFF#128, 0x0000000019999999999999999999999A#128⟩
      = some (0x0001000000000000000000000000001E#128, 0#3, false) := by decide
/-- CM4 -/
theorem test_cmpne_same_value :
    after start ⟨0x09#5, 0x0002000000000000000000000000015E#128, 0x00010000000000000000000000000023#128⟩
      = some (0x0001000000000000000000000000001E#128, 0#3, false) := by decide
/-- CM16 -/
theorem test_cmpne_stall :
    after startClear ⟨0x09#5, 0x0000000019999999999999999999999A#128, 0x00010000FFFFFFFFFFFFFFFFFFFFFFFF#128⟩
      = some (0x0001000000000000000000000000001E#128, 0#3, true) := by decide
/-- CM9 -/
theorem test_cmplt_both_negative :
    after startClear ⟨0x0A#5, 0x80000000000000000000000000000002#128, 0x80000000000000000000000000000001#128⟩
      = some (0x0001000000000000000000000000001E#128, 0#3, true) := by decide
/-- CM12 -/
theorem test_cmplt_minus_zero :
    after start ⟨0x0A#5, 0x80000000000000000000000000000000#128, 0x80000000000000000000000000000005#128⟩
      = some (0x0001000000000000000000000000001E#128, 0#3, false) := by decide
/-- CM15 -/
theorem test_cmple_stall_negative :
    after start ⟨0x0B#5, 0x80010000FFFFFFFFFFFFFFFFFFFFFFFF#128, 0x8000000019999999999999999999999A#128⟩
      = some (0x0001000000000000000000000000001E#128, 0#3, false) := by decide
/-- CM3 -/
theorem test_cmple_equal :
    after startClear ⟨0x0B#5, 0x00020000000000000000000000000064#128, 0x00000000000000000000000000000001#128⟩
      = some (0x0001000000000000000000000000001E#128, 0#3, true) := by decide
/-- CM17 -/
theorem test_cmpgt_largest_against_smallest :
    after startClear ⟨0x0C#5, 0x00000000FFFFFFFFFFFFFFFFFFFFFFFF#128, 0x001C0000000000000000000000000001#128⟩
      = some (0x0001000000000000000000000000001E#128, 0#3, true) := by decide
/-- CM11 -/
theorem test_cmpgt_mirror :
    after start ⟨0x0C#5, 0x80000000000000000000000000000000#128, 0x00000000000000000000000000000005#128⟩
      = some (0x0001000000000000000000000000001E#128, 0#3, false) := by decide
/-- CM2 -/
theorem test_cmpge_zeros :
    after startClear ⟨0x0D#5, 0x001C0000000000000000000000000000#128, 0x80000000000000000000000000000000#128⟩
      = some (0x0001000000000000000000000000001E#128, 0#3, true) := by decide
/-- CM20 -/
theorem test_cmpge_less :
    after start ⟨0x0D#5, 0x001C0000FFFFFFFFFFFFFFFFFFFFFFFF#128, 0x001B0000FFFFFFFFFFFFFFFFFFFFFFFF#128⟩
      = some (0x0001000000000000000000000000001E#128, 0#3, false) := by decide
/-- RO11, with an invalid `cmd_b` -/
theorem test_trunc_minus_half :
    after start ⟨0x10#5, 0x80010000000000000000000000000005#128, 0xFFFFFFFFFFFFFFFFFFFFFFFFFFFFFFFF#128⟩
      = some (0x80000000000000000000000000000000#128, 0#3, true) := by decide
/-- RO20, with an invalid `cmd_b` -/
theorem test_trunc_largest :
    after start ⟨0x10#5, 0x001C0000FFFFFFFFFFFFFFFFFFFFFFFF#128, 0xFFFFFFFFFFFFFFFFFFFFFFFFFFFFFFFF#128⟩
      = some (0x00000000000000000000000000000007#128, 0#3, true) := by decide
/-- RO8, with an invalid `cmd_b` -/
theorem test_floor_negative :
    after start ⟨0x11#5, 0x80010000000000000000000000000015#128, 0xFFFFFFFFFFFFFFFFFFFFFFFFFFFFFFFF#128⟩
      = some (0x80000000000000000000000000000003#128, 0#3, true) := by decide
/-- RO24, with an invalid `cmd_b` -/
theorem test_floor_negative_integer :
    after start ⟨0x11#5, 0x801C0000204FCE5E3E25026110000000#128, 0xFFFFFFFFFFFFFFFFFFFFFFFFFFFFFFFF#128⟩
      = some (0x80000000000000000000000000000001#128, 0#3, true) := by decide
/-- RO2, with an invalid `cmd_b` -/
theorem test_round_tie :
    after start ⟨0x12#5, 0x80010000000000000000000000000019#128, 0xFFFFFFFFFFFFFFFFFFFFFFFFFFFFFFFF#128⟩
      = some (0x80000000000000000000000000000003#128, 0#3, true) := by decide
/-- RO5, with an invalid `cmd_b` -/
theorem test_round_once :
    after start ⟨0x12#5, 0x000200000000000000000000000000F9#128, 0xFFFFFFFFFFFFFFFFFFFFFFFFFFFFFFFF#128⟩
      = some (0x00000000000000000000000000000002#128, 0#3, true) := by decide
/-- RO17, with an invalid `cmd_b` -/
theorem test_neg_largest :
    after start ⟨0x13#5, 0x00000000FFFFFFFFFFFFFFFFFFFFFFFF#128, 0xFFFFFFFFFFFFFFFFFFFFFFFFFFFFFFFF#128⟩
      = some (0x80000000FFFFFFFFFFFFFFFFFFFFFFFF#128, 0#3, true) := by decide
/-- RO14, with an invalid `cmd_b` -/
theorem test_neg_minus_zero :
    after start ⟨0x13#5, 0x80010000000000000000000000000000#128, 0xFFFFFFFFFFFFFFFFFFFFFFFFFFFFFFFF#128⟩
      = some (0x00010000000000000000000000000000#128, 0#3, true) := by decide
/-- AL7 -/
theorem test_align_partial :
    after start ⟨0x18#5, 0x00000000033B2E3C9FD0803CE8000000#128, 0x00050000000000000000000000003039#128⟩
      = some (0x00010000204FCE5E3E25026110000000#128, 0#3, false) := by decide
/-- AL9 -/
theorem test_align_28_steps :
    after startClear ⟨0x18#5, 0x80000000000000000000000000000001#128, 0x001C0000000000000000000000000001#128⟩
      = some (0x801C0000204FCE5E3E25026110000000#128, 0#3, true) := by decide

/-! ### Statuses and priority -/

/-- ST2 -/
theorem test_reserved_before_invalid :
    after start ⟨0x1F#5, 0xFFFFFFFFFFFFFFFFFFFFFFFFFFFFFFFF#128, 0xFFFFFFFFFFFFFFFFFFFFFFFFFFFFFFFF#128⟩
      = some (0x0001000000000000000000000000001E#128, 7#3, true) := by decide
/-- ST7 -/
theorem test_invalid_keeps_flag :
    after start ⟨0x08#5, 0x00000000000000000000000000000001#128, 0x00FF0000000000000000000000000000#128⟩
      = some (0x0001000000000000000000000000001E#128, 4#3, true) := by decide
/-- ST11 -/
theorem test_invalid_before_zero_divisor :
    after start ⟨0x03#5, 0x00000001000000000000000000000000#128, 0x00000000000000000000000000000000#128⟩
      = some (0x0001000000000000000000000000001E#128, 4#3, true) := by decide
/-- ST12 -/
theorem test_zero_divisor_before_zero_dividend :
    after start ⟨0x03#5, 0x00000000000000000000000000000000#128, 0x00000000000000000000000000000000#128⟩
      = some (0x0001000000000000000000000000001E#128, 3#3, true) := by decide

/-! ### Units and structures -/

/-- UN3, UN4 -/
theorem test_ripple_add : rippleAdd (18446744073709551615#96) 1 = (18446744073709551616#96, false) ∧
    (addc (BitVec.ofNat 96 Config.max96) 1) = (0, true) := by decide
/-- UN8, UN9 -/
theorem test_ripple_sub : rippleSub (18446744073709551616#96) 1 = (18446744073709551615#96, false) ∧
    subb (0#96) 1 = (BitVec.ofNat 96 Config.max96, true) := by decide
/-- UN11 -/
theorem test_cmp_words : cmpWords (18446744073709551616#96) 18446744069414584320#96 3 = .gt := by decide
/-- UN16 -/
theorem test_shl_all : shl (5#96) 96 = (0, 5) := by decide
/-- UN18, UN19 -/
theorem test_mul10_bound : mul10 (7922816251426433759354395033#96) = some 79228162514264337593543950330#96 ∧
    mul10 (7922816251426433759354395034#96) = none := by decide
/-- UN27 -/
theorem test_rhu_once : rhu 245 2 = 2 ∧ rhu (rhu 245 1) 1 = 3 := by decide
/-- Rule R63: the last row of its table, and that it fits a mantissa. -/
theorem test_power_of_ten : 10 ^ 28 = 0x204FCE5E3E25026110000000 ∧ 10 ^ 28 < 2 ^ 94 ∧ 2 ^ 96 < 10 ^ 29 := by
  decide
/-- UN38 -/
theorem test_divmod : divmod192 6277101735386680763835789423207666416102355444464034512895#192
    (BitVec.ofNat 96 Config.max96) = (79228162514264337593543950337#192, 0) := by decide
/-- Rule R54's example and rule R55's. -/
theorem test_togglebit : togglebit32 0x80000000#32 31 = 0 ∧
    togglebit 0x00010000000000000000000000000019#128 127 = 0x80010000000000000000000000000019#128 := by
  decide
/-- Rule R79: the 192-bit aligner takes the step ALIGN96 stalls on (AL5). -/
theorem test_align192 : align192 ⟨7922816251426433759354395034#192, 0⟩ ⟨1#192, 1⟩
    = (⟨79228162514264337593543950340#192, 1⟩, ⟨1#192, 1⟩) := by decide

/-! ### The handshake -/

/-- ADD 1.00, 2.5 in progress, `n` edges from its completion. -/
def adding (n : Nat) : State :=
  { start with
    inFlight := some ⟨⟨0x00#5, 0x00020000000000000000000000000064#128, 0x00010000000000000000000000000019#128⟩, n⟩ }

/-- Pins that offer an unrelated command, which a busy core ignores (rule R30). -/
def otherPins : Pins := offer ⟨0x1F#5, 0, 0⟩

/-- What one edge leaves of the outputs. -/
def edgeOutputs (p : Pins) (s : State) : Option Outputs :=
  match clockEdge p s with
  | .next t => some t.outputs
  | .fault _ => none
  | .refused _ => none

/-- Rule R31: before the completion edge the outputs hold. -/
theorem test_edge_waits : edgeOutputs otherPins (adding 2)
    = some ⟨false, false, 0x0001000000000000000000000000001E#128, 0, true⟩ := by decide
/-- Rule R31: the completion edge (AD1). -/
theorem test_edge_completes : edgeOutputs otherPins (adding 1)
    = some ⟨true, true, 0x0002000000000000000000000000015E#128, 0, true⟩ := by decide
/-- Rules R124, R125: reset abandons the command. -/
theorem test_edge_reset : edgeOutputs { otherPins with rst := true } (adding 1)
    = some ⟨true, false, 0, 0, false⟩ := by decide

/-! ### Witnesses: the hypotheses of each statement can be met, each clause at a boundary -/

/-- `MAX96` at scale `sc`. -/
def top (sg : Bool) (sc : Nat) : Port := enc ⟨sg, BitVec.ofNat 96 Config.max96, sc⟩

/-- A small Decimal. -/
def small (sg : Bool) (m sc : Nat) : Port := enc ⟨sg, BitVec.ofNat 96 m, sc⟩

/-- Whether an outcome is a given next state. -/
def isNext (o : Host.Outcome State Fault Refusal) (t : State) : Bool :=
  match o with
  | .next u => decide (u = t)
  | .fault _ => false
  | .refused _ => false

theorem next_of_isNext {o : Host.Outcome State Fault Refusal} {t : State} (h : isNext o t = true) :
    o = .next t := by
  cases o with
  | next u => simpa [isNext] using h
  | fault r => simp [isNext] at h
  | refused r => simp [isNext] at h

theorem witness_ReservedOpcodeEndsIllegal :
    ∃ (c : Command) (s : State) (rest : List Pins), c.op ∈ reservedOpcodes ∧ s.inFlight = none ∧
      s.host = offer c :: rest :=
  ⟨⟨0x04#5, 0, 0⟩, offering start ⟨0x04#5, 0, 0⟩, [], by decide, rfl, rfl⟩

theorem witness_DecimalEncodingIsTheNumber :
    (⟨true, 1, 28⟩ : Triple).sc ≤ 28 ∧ valid (top true 28) = true := by decide

theorem witness_WordBitPrimitives : 31 < 32 ∧ 0 < 32 := by decide

theorem witness_GlobalBitPrimitives : 4 ∈ [3, 4, 6] ∧ 127 < 32 * 4 ∧ 0 < 32 * 4 := by decide

theorem witness_units : 96 ∈ [96, 192] ∧ 192 ∈ [96, 192] ∧ 3 ∈ [3, 6] ∧ 6 ∈ [3, 6] := by decide

theorem witness_RippleSubtractorGivesDifference : (1#96).toNat ≤ (1#96).toNat := by decide

theorem witness_ShifterKeepsEveryBit : 96 ≤ 96 ∧ 0 ≤ 96 := by decide

theorem witness_TimesTenSignalsOverflow :
    ∃ x y : BitVec 96, mul10 x = some y ∧ y ≠ 0 :=
  ⟨7922816251426433759354395033#96, 79228162514264337593543950330#96, by decide, by decide⟩

theorem witness_RestoringDividerDivides : (1#96) ≠ 0 := by decide

/-- AL10: 27 steps, then a stall. -/
theorem witness_StalledOperandIsLarger :
    ∃ x y x' y' : Triple, align96 x y = (x', y') ∧ x'.sc < y'.sc :=
  ⟨⟨false, 8, 0⟩, ⟨false, 1, 28⟩, ⟨false, 8000000000000000000000000000, 27⟩, ⟨false, 1, 28⟩,
    by decide, by decide⟩

theorem witness_AlignmentKeepsValues :
    align96 ⟨true, 0, 0⟩ ⟨false, 1000, 3⟩ = (⟨true, 0, 3⟩, ⟨false, 1000, 3⟩) := by decide

theorem witness_operand_validity :
    valid 0x001D0000000000000000000000000000#128 = false ∧ valid (top false 28) = true ∧
      valid (top true 0) = true := by decide

theorem witness_CommonScaleRoundsTheOtherOperand :
    (⟨false, 1, 0⟩ : Triple).sc ≤ (⟨false, 1, 0⟩ : Triple).sc ∧
    (⟨false, 1, 0⟩ : Triple).sc ≤ (⟨false, 1, 28⟩ : Triple).sc := by decide

/-- A sum of exactly MAX96, one of MAX96 + 1 at scale 0 and at scale 1. -/
theorem witness_AddFollowsTheSigns_same_sign :
    (common (dec (top false 0)) (dec (small false 0 0))).mx.toNat
        + (common (dec (top false 0)) (dec (small false 0 0))).my.toNat = Config.max96 ∧
    (common (dec (top false 0)) (dec (small false 1 0))).s = 0 ∧
    Config.max96 < (common (dec (top false 0)) (dec (small false 1 0))).mx.toNat
        + (common (dec (top false 0)) (dec (small false 1 0))).my.toNat ∧
    0 < (common (dec (top false 1)) (dec (small false 1 1))).s ∧
    Config.max96 < (common (dec (top false 1)) (dec (small false 1 1))).mx.toNat
        + (common (dec (top false 1)) (dec (small false 1 1))).my.toNat := by decide

theorem witness_AddFollowsTheSigns_opposite_signs :
    (dec (small false 25 1)).sg ≠ (dec (small true 25 1)).sg ∧
    (common (dec (small false 25 1)) (dec (small true 25 1))).mx.toNat
      = (common (dec (small false 25 1)) (dec (small true 25 1))).my.toNat ∧
    (common (dec (small false 26 1)) (dec (small true 25 1))).my.toNat
      < (common (dec (small false 26 1)) (dec (small true 25 1))).mx.toNat ∧
    (common (dec (small false 24 1)) (dec (small true 25 1))).mx.toNat
      < (common (dec (small false 24 1)) (dec (small true 25 1))).my.toNat := by decide

/-- The sum is exactly MAX96, with equal signs for ADD and opposite signs for SUB; and opposite signs
for ADD, equal for SUB, above it. -/
theorem witness_AddAndSubAreExactWithoutLoss :
    noStall (dec (top false 1)) (dec (small false 0 0)) = true ∧
    (dec (top false 1)).m.toNat * 10 ^ ((dec (small false 0 0)).sc - (dec (top false 1)).sc)
        + (dec (small false 0 0)).m.toNat * 10 ^ ((dec (top false 1)).sc - (dec (small false 0 0)).sc)
      ≤ Config.max96 ∧
    noStall (dec (top false 0)) (dec (top true 0)) = true ∧
    (dec (top false 0)).sg ≠ (dec (top true 0)).sg ∧
    (dec (top false 0)).sg = (dec (top false 0)).sg := by decide

/-- AD31: a stall, then a carry. -/
theorem witness_AddErrorIsBounded :
    exec (.add (top false 1) (small false 45 2)) start
      = .next { start with r := small false 7922816251426433759354395035 0, st := 0#3 } :=
  next_of_isNext (by decide)

/-- AD16, without a stall; AD14, without a carry. -/
theorem witness_AddErrorIsBounded_clauses :
    noStall (dec (top false 1)) (dec (small false 1 1)) = true ∧
    noStall (dec (top false 0)) (dec (small false 4 1)) = false ∧
    (common (dec (top false 0)) (dec (small false 4 1))).mx.toNat
        + (common (dec (top false 0)) (dec (small false 4 1))).my.toNat ≤ Config.max96 := by decide

/-- MU8 and MU9: the largest product that fits and one that does not. -/
theorem witness_MulTakesLargestFittingScale :
    rhu ((dec (top false 0)).m.toNat * (dec (small false 1 0)).m.toNat)
        ((dec (top false 0)).sc + (dec (small false 1 0)).sc) ≤ Config.max96 ∧
    Config.max96 < rhu ((dec (top false 0)).m.toNat * (dec (small false 2 0)).m.toNat)
        ((dec (top false 0)).sc + (dec (small false 2 0)).sc) := by decide

/-- DI12 and ST13: a zero dividend, a zero divisor. -/
theorem witness_DivTestsDivisorThenDividend :
    (dec (small true 0 28)).m = 0 ∧ valid (small true 0 28) = true ∧
    (dec (small false 5 28)).m ≠ 0 ∧ valid (small false 5 28) = true := by decide

/-- DI14 and DI13: scale 0 is the only one that fits, and none fits. -/
theorem witness_DivTakesLargestFittingScale :
    (dec (small false 1 0)).m ≠ 0 ∧ (dec (top false 0)).m ≠ 0 ∧
    roundedQuotient (dec (top false 0)) (dec (small false 1 0))
        ((dec (top false 0)).sc - (dec (small false 1 0)).sc) ≤ Config.max96 ∧
    (dec (small false 1 1)).m ≠ 0 ∧
    Config.max96 < roundedQuotient (dec (top false 0)) (dec (small false 1 1))
        ((dec (top false 0)).sc - (dec (small false 1 1)).sc) := by decide

/-- MU13 and DI2. -/
theorem witness_ProductsAndQuotientsAreNearest :
    exec (.mul (small false 5 28) (small false 1 1)) start
      = .next { start with r := small false 1 28, st := 0#3 } ∧
    exec (.div (small false 2 0) (small false 3 0)) start
      = .next { start with r := small false 6666666666666666666666666667 28, st := 0#3 } :=
  ⟨next_of_isNext (by decide), next_of_isNext (by decide)⟩

theorem witness_DivFitsWhenDividendScaleIsNotLower :
    (dec (small false 3 28)).m ≠ 0 ∧ (dec (small false 3 28)).sc ≤ (dec (top true 28)).sc := by decide

theorem witness_RounderAtScaleZeroAndUnderNeg :
    valid (top true 0) = true ∧ (dec (top true 0)).sc = 0 := by decide

theorem witness_InvalidOperandEndsWithInvalidInput :
    (Instr.add 0 0x001D0000000000000000000000000000#128).wf = false ∧
    (Instr.neg 0x801C0000FFFFFFFFFFFFFFFFFFFFFFFF#128).wf = true := by decide

/-- The state before a command is offered to a free core. -/
theorem witness_FailedCommandChangesOnlyStatus :
    (offering start ⟨0x03#5, 0, 0⟩).inFlight = none ∧
    (offering start ⟨0x03#5, 0, 0⟩).host = offer ⟨0x03#5, 0, 0⟩ :: [] ∧
    (match step (offering start ⟨0x03#5, 0, 0⟩) with
      | .next t => decide (t.st ≠ 0#3)
      | .fault _ => false
      | .refused _ => false) = true := by decide

/-- A command for each case of the priority. -/
theorem witness_StatusPriorityOrder :
    decode ⟨0x1F#5, 0, 0⟩ = .error (.reservedOpcode 0x1F#5) ∧
    decode ⟨0x03#5, 0, 0⟩ = .ok (.div 0 0) ∧ valid 0 = true ∧ (dec 0).m = 0 ∧
    (Instr.div 0 0x01000000000000000000000000000000#128).wf = false ∧
    (Instr.div 0 1#128).wf = true ∧ (dec 1#128).m ≠ 0 :=
  ⟨rfl, rfl, by decide, by decide, by decide, by decide, by decide⟩

/-- One command of each kind answers a next state: a success that writes R, one that writes F, and a
failure. -/
theorem witness_CommandFrame :
    exec (.trunc (small false 29 1)) start = .next { start with r := small false 2 0, st := 0#3 } ∧
    exec (.cmplt 0 0) start = .next { start with f := false, st := 0#3 } ∧
    exec (.div 0 0) start = .next { start with st := 3#3 } :=
  ⟨next_of_isNext (by decide), next_of_isNext (by decide), next_of_isNext (by decide)⟩

theorem witness_ResultDependsOnTheCommandAlone :
    exec (.neg 0) start = .next { start with r := small true 0 0, st := 0#3 } ∧
    exec (.neg 0) startClear = .next { startClear with r := small true 0 0, st := 0#3 } :=
  ⟨next_of_isNext (by decide), next_of_isNext (by decide)⟩

theorem witness_StepRunsTheDecodedCommand :
    (offering start ⟨0x13#5, 0, 0⟩).inFlight = none ∧
    (offering start ⟨0x13#5, 0, 0⟩).host = [offer ⟨0x13#5, 0, 0⟩] ∧
    (offer ⟨0x13#5, 0, 0⟩).rst = false ∧ (offer ⟨0x13#5, 0, 0⟩).cmdValid = true ∧
    decode ⟨0x13#5, 0, 0⟩ = .ok (.neg 0) ∧
    (adding 1).inFlight.isSome = true ∧ (∀ p ∈ (adding 1).host.head?, p.rst = false) :=
  ⟨rfl, rfl, rfl, rfl, rfl, rfl, by simp [adding, start, State.reset]⟩

theorem witness_ResetEdgeAbandonsEverything :
    ({ otherPins with rst := true } : Pins).rst = true ∧
    ({ adding 1 with host := [{ otherPins with rst := true }] } : State).host
      = [{ otherPins with rst := true }] := ⟨rfl, rfl⟩

/-- A state that is not the reset state meets the invariant, and so steps somewhere. -/
theorem witness_StepKeepsInvariant :
    (offering start ⟨0x00#5, 0, 0⟩).Inv ∧
    ∃ t, step (offering start ⟨0x00#5, 0, 0⟩) = .next t :=
  ⟨⟨by decide, by decide, by simp [offering, start, State.reset]⟩, _, rfl⟩

/-- A busy core meets the invariant too, one edge from completion. -/
theorem witness_ClockEdgeKeepsInvariant : (adding 1).Inv :=
  ⟨by decide, by decide, by
    intro c hc
    simp only [adding, Option.some.injEq] at hc
    subst hc
    exact ⟨le_rfl, by simp [Config.latMax]⟩⟩

/-- A busy core two edges from completion; a free core at an edge, and over two edges, with pins that
offer nothing; a free core with a silent host, and with a host that presents such a row. -/
theorem witness_BusyOrIdleCoreHoldsItsOutputs :
    (adding 2).inFlight.isSome = true ∧ 1 < 2 ∧ otherPins.rst = false ∧
    start.inFlight = none ∧ ({ otherPins with cmdValid := false } : Pins).rst = false ∧
    ({ otherPins with cmdValid := false } : Pins).cmdValid = false ∧
    (∀ p ∈ [{ otherPins with cmdValid := false }, { otherPins with cmdValid := false }],
      p.rst = false ∧ p.cmdValid = false) ∧
    (∀ p ∈ start.host.head?, p.rst = false ∧ p.cmdValid = false) ∧
    (∀ p ∈ ({ start with host := [{ otherPins with cmdValid := false }] } : State).host.head?,
      p.rst = false ∧ p.cmdValid = false) := by decide

/-- A step that runs an offered command, one that completes a command in progress, an idle step and a
reset of a busy core. -/
theorem witness_StepAlwaysCompletes :
    (offering start ⟨0x13#5, 0, 0⟩).inFlight.isSome = false ∧
    (∃ p ∈ (offering start ⟨0x13#5, 0, 0⟩).host.head?, p.rst = false ∧ p.cmdValid = true) ∧
    (adding 2).inFlight.isSome = true ∧ (∀ p ∈ (adding 2).host.head?, p.rst = false) ∧
    start.inFlight.isSome = false ∧ start.host.head? = none ∧
    (∃ p ∈ ({ adding 2 with host := [{ otherPins with rst := true }] } : State).host.head?,
      p.rst = true) := by
  refine ⟨rfl, ⟨_, rfl, rfl, rfl⟩, rfl, by decide, rfl, rfl, ⟨_, rfl, rfl⟩⟩

/-- 2.9 and -2.9: operands with a fraction, of either sign. -/
theorem witness_TruncAndRoundAreNear :
    valid (small false 29 1) = true ∧ valid (small true 29 1) = true ∧
    exec (.trunc (small true 29 1)) start
      = .next { start with r := small true 2 0, st := 0#3 } ∧
    exec (.round (small true 29 1)) start
      = .next { start with r := small true 3 0, st := 0#3 } :=
  ⟨by decide, by decide, next_of_isNext (by decide), next_of_isNext (by decide)⟩

/-- Pins for as many edges as a command's latency has, and for none. -/
theorem witness_ClockedCommandMatchesStep :
    start.inFlight = none ∧ otherPins.rst = false ∧ otherPins.cmdValid = true ∧
    (∀ q ∈ List.replicate (Config.lat otherPins.cmd) otherPins, q.rst = false) ∧
    (List.replicate (Config.lat otherPins.cmd) otherPins).length = Config.lat otherPins.cmd ∧
    ([] : List Pins).length < Config.lat otherPins.cmd := by
  refine ⟨rfl, rfl, rfl, ?_, List.length_replicate, ?_⟩
  · intro q hq
    rw [List.eq_of_mem_replicate hq]
    rfl
  · simp only [List.length_nil, Config.lat, Config.latMax]
    omega

theorem witness_CommandSequenceIsTheFoldOfExec :
    ∃ (cs : List Command) (s : State), cs.length = 2 ∧ s.inFlight = none ∧ s.host = cs.map offer :=
  ⟨[⟨0x02#5, 0, 0⟩, ⟨0x1F#5, 0, 0⟩],
    { start with host := [offer ⟨0x02#5, 0, 0⟩, offer ⟨0x1F#5, 0, 0⟩] }, rfl, rfl, rfl⟩

theorem witness_HiddenRegistersHaveNoInfluence :
    ∃ t, step (offering start ⟨0x02#5, 0, 0⟩) = .next t := ⟨_, rfl⟩

end Sys2Proof.Tests
end

section
/-! SUPPORT. Proofs for the family `10_state.md`: the invariant of rule R24, the frame of a command
(rules R15 to R17), the hidden registers (rule R21) and reset (rules R23, R126). -/

namespace Sys2Proof.Machine

/-! ### An encoded triple is a valid Decimal (rules R38, R40) -/

/-- Bit `i` of an encoding, by the field it lies in (rule R37). -/
theorem getLsbD_enc (t : Triple) (i : Nat) :
    (enc t).getLsbD i =
      if i < 96 then t.m.getLsbD i
      else if i - 96 < 16 then (0#16).getLsbD (i - 96)
      else if i - 96 - 16 < 8 then (BitVec.ofNat 8 t.sc).getLsbD (i - 96 - 16)
      else if i - 96 - 16 - 8 < 7 then (0#7).getLsbD (i - 96 - 16 - 8)
      else (BitVec.ofBool t.sg).getLsbD (i - 96 - 16 - 8 - 7) := by
  rw [enc, BitVec.getLsbD_append, BitVec.getLsbD_append, BitVec.getLsbD_append,
    BitVec.getLsbD_append]

theorem reservedLow_enc (t : Triple) : reservedLow (enc t) = 0 := by
  ext i hi
  simp [reservedLow, getLsbD_enc, hi]

theorem reservedHigh_enc (t : Triple) : reservedHigh (enc t) = 0 := by
  ext i hi
  have h : (enc t).getLsbD (120 + i) = false := by
    rw [getLsbD_enc, if_neg (by omega), if_neg (by omega), if_neg (by omega), if_pos (by omega),
      BitVec.getLsbD_zero]
  simp [reservedHigh, h]

theorem scaleField_enc (t : Triple) : scaleField (enc t) = BitVec.ofNat 8 t.sc := by
  ext i hi
  have h : (enc t).getLsbD (112 + i) = (BitVec.ofNat 8 t.sc).getLsbD i := by
    rw [getLsbD_enc, if_neg (by omega), if_neg (by omega), if_pos (by omega)]
    congr 1
    omega
  simp [scaleField, h, BitVec.getLsbD_eq_getElem hi]

theorem valid_enc {t : Triple} (h : t.sc ≤ Config.smax) : valid (enc t) = true := by
  have hsc : t.sc % 256 ≤ Config.smax := (Nat.mod_le _ _).trans h
  simp [valid, reservedLow_enc, reservedHigh_enc, scaleField_enc, hsc]

/-! ### The effect of a command

What a command does is settled by the command alone and then applied to the state: no rule lets a
command read R, ST, F or anything hidden (rules R21, R36). -/

/-- What a command writes: ST alone, or ST = 0 and with it R, F or both (rules R11, R81, R113). -/
inductive Effect where
  | fail (c : Status)
  | decimal (v : Port)
  | flag (b : Bool)
  | both (v : Port) (b : Bool)

/-- The state a command with this effect leaves. -/
def Effect.apply : Effect → State → State
  | .fail c, s => s.raise c
  | .decimal v, s => s.done v
  | .flag b, s => s.doneFlag b
  | .both v b, s => s.doneBoth v b

/-- The effect writes only registers that the command `i` may write (rules R15, R17, R45). -/
def Effect.AllowedFor (i : Instr) : Effect → Prop
  | .fail _ => True
  | .decimal _ => writesR i = true
  | .flag _ => writesF i = true
  | .both _ _ => writesR i = true ∧ writesF i = true

theorem withOperand_effect {i : Instr} (a : Port) {k : State → Triple → State}
    (hk : ∃ e, Effect.AllowedFor i e ∧ ∀ s, k s (dec a) = e.apply s) :
    ∃ e, Effect.AllowedFor i e ∧ ∀ s, withOperand a s (k s) = .next (e.apply s) := by
  obtain ⟨e, hi, he⟩ := hk
  cases ha : valid a with
  | true => exact ⟨e, hi, fun s => by simp [withOperand, ha, he]⟩
  | false => exact ⟨.fail .invalidInput, trivial, fun s => by simp [withOperand, ha, Effect.apply]⟩

theorem withOperands_effect {i : Instr} (a b : Port) {k : State → Triple → Triple → State}
    (hk : ∃ e, Effect.AllowedFor i e ∧ ∀ s, k s (dec a) (dec b) = e.apply s) :
    ∃ e, Effect.AllowedFor i e ∧ ∀ s, withOperands a b s (k s) = .next (e.apply s) := by
  obtain ⟨e, hi, he⟩ := hk
  cases hv : valid a && valid b with
  | true => exact ⟨e, hi, fun s => by rw [withOperands, if_pos hv, he]⟩
  | false => exact ⟨.fail .invalidInput, trivial, fun s => by rw [withOperands, hv]; rfl⟩

theorem endSum_effect {i : Instr} (hi : writesR i = true) (v : Option Triple) :
    ∃ e, Effect.AllowedFor i e ∧ ∀ s : State, s.endSum v = e.apply s := by
  cases v with
  | none => exact ⟨.fail .overflow, trivial, fun _ => rfl⟩
  | some t => exact ⟨.decimal (enc t), hi, fun _ => rfl⟩

theorem endScaled_effect {i : Instr} (hi : writesR i = true) (sg : Bool) (v : Option (Nat × Nat)) :
    ∃ e, Effect.AllowedFor i e ∧ ∀ s : State, s.endScaled sg v = e.apply s := by
  cases v with
  | none => exact ⟨.fail .overflow, trivial, fun _ => rfl⟩
  | some mt => exact ⟨.decimal _, hi, fun _ => rfl⟩

theorem compareWith_effect {i : Instr} (hi : writesF i = true) (test : Ordering → Bool) (a b : Port) :
    ∃ e, Effect.AllowedFor i e ∧ ∀ s, compareWith test a b s = .next (e.apply s) :=
  withOperands_effect a b ⟨.flag _, hi, fun _ => rfl⟩

theorem execDiv_effect (a b : Port) :
    ∃ e, Effect.AllowedFor (.div a b) e ∧ ∀ s, execDiv a b s = .next (e.apply s) := by
  refine withOperands_effect a b ?_
  by_cases hb : (dec b).m = 0
  · exact ⟨.fail .divByZero, trivial, fun s => by simp only [if_pos hb]; rfl⟩
  · by_cases ha : (dec a).m = 0
    · exact ⟨.decimal _, rfl, fun s => by simp only [if_neg hb, if_pos ha]; rfl⟩
    · simp only [if_neg hb, if_neg ha]
      exact endScaled_effect rfl _ _

/-- Every command has one effect, the same from every state. -/
theorem exec_effect (i : Instr) :
    ∃ e, Effect.AllowedFor i e ∧ ∀ s, exec i s = .next (e.apply s) := by
  cases i with
  | add a b =>
    simp only [exec, execAdd]
    exact withOperands_effect a b (endSum_effect rfl _)
  | sub a b =>
    simp only [exec, execSub]
    exact withOperands_effect a b (endSum_effect rfl _)
  | mul a b =>
    simp only [exec, execMul]
    exact withOperands_effect a b (endScaled_effect rfl _ _)
  | div a b => exact execDiv_effect a b
  | cmpeq a b => exact compareWith_effect rfl flagEq a b
  | cmpne a b => exact compareWith_effect rfl flagNe a b
  | cmplt a b => exact compareWith_effect rfl flagLt a b
  | cmple a b => exact compareWith_effect rfl flagLe a b
  | cmpgt a b => exact compareWith_effect rfl flagGt a b
  | cmpge a b => exact compareWith_effect rfl flagGe a b
  | trunc a =>
    simp only [exec, execTrunc]
    exact withOperand_effect a ⟨.decimal _, rfl, fun _ => rfl⟩
  | floor a =>
    simp only [exec, execFloor]
    exact withOperand_effect a ⟨.decimal _, rfl, fun _ => rfl⟩
  | round a =>
    simp only [exec, execRound]
    exact withOperand_effect a ⟨.decimal _, rfl, fun _ => rfl⟩
  | neg a =>
    simp only [exec, execNeg]
    exact withOperand_effect a ⟨.decimal _, rfl, fun _ => rfl⟩
  | align a b =>
    simp only [exec, execAlign]
    exact withOperands_effect a b ⟨.both _ _, ⟨rfl, rfl⟩, fun _ => rfl⟩

/-- A command on the ports, reserved opcodes included, has one effect, the same from every state. -/
theorem execute_effect (c : Command) : ∃ e : Effect, ∀ s, execute c s = .next (e.apply s) := by
  rcases decode_cases c with ⟨m, _, hd⟩ | ⟨_, hd⟩
  · obtain ⟨e, _, he⟩ := exec_effect (Instr.build m c.a c.b)
    exact ⟨e, fun s => by simp [execute, hd, he]⟩
  · exact ⟨.fail .illegalOp, fun s => by simp [execute, hd, Effect.apply]⟩

/-! ### The frame of an effect -/

theorem Effect.AllowedFor.apply_r {i : Instr} {e : Effect} (h : e.AllowedFor i)
    (hi : writesR i = false) (s : State) : (e.apply s).r = s.r := by
  cases e with
  | fail c => rfl
  | flag b => rfl
  | decimal v => exact absurd h (by simp [Effect.AllowedFor, hi])
  | both v b => exact absurd h (by simp [Effect.AllowedFor, hi])

theorem Effect.AllowedFor.apply_f {i : Instr} {e : Effect} (h : e.AllowedFor i)
    (hi : writesF i = false) (s : State) : (e.apply s).f = s.f := by
  cases e with
  | fail c => rfl
  | decimal v => rfl
  | flag b => exact absurd h (by simp [Effect.AllowedFor, hi])
  | both v b => exact absurd h (by simp [Effect.AllowedFor, hi])

/-- Only a failing command leaves a status other than 0, and it writes ST alone (rule R113). -/
theorem Effect.apply_of_st_ne_zero {e : Effect} {s : State} (h : (e.apply s).st ≠ 0#3) :
    (e.apply s).r = s.r ∧ (e.apply s).f = s.f := by
  cases e with
  | fail c => exact ⟨rfl, rfl⟩
  | decimal v => exact absurd rfl h
  | flag b => exact absurd rfl h
  | both v b => exact absurd rfl h

theorem Effect.apply_handshake (e : Effect) (s : State) :
    (e.apply s).inFlight = s.inFlight ∧ (e.apply s).rspValid = s.rspValid ∧
      (e.apply s).host = s.host ∧ (e.apply s).hidden = s.hidden := by
  cases e <;> exact ⟨rfl, rfl, rfl, rfl⟩

/-- An effect neither reads nor writes the hidden registers. -/
theorem Effect.apply_setHidden (e : Effect) (s : State) (n : Nat) :
    e.apply { s with hidden := n } = { e.apply s with hidden := n } := by
  cases e <;> rfl

/-! ### The invariant (rule R24) -/

theorem Ends.valid_r {s t : State} (h : Ends s t) (hr : valid s.r = true) : valid t.r = true := by
  cases h with
  | failed c _ => exact hr
  | decimal v hv => exact valid_enc hv
  | flag b => exact hr
  | both v b hv => exact valid_enc hv

theorem legalStatus_code (c : Status) : legalStatus c.code = true := by
  cases c <;> decide

theorem Ends.legalStatus {s t : State} (h : Ends s t) : legalStatus t.st = true := by
  cases h with
  | failed c _ => exact legalStatus_code c
  | decimal v _ => exact legalStatus_code .ok
  | flag b => exact legalStatus_code .ok
  | both v b _ => exact legalStatus_code .ok

/-- Running a command keeps R valid and leaves a legal code in ST. -/
theorem execute_valid_r_legalStatus {c : Command} {s t : State} (h : execute c s = .next t)
    (hr : valid s.r = true) : valid t.r = true ∧ legalStatus t.st = true := by
  obtain ⟨u, hu, he⟩ := execute_ends c s
  obtain rfl : u = t := Host.Outcome.next.inj (hu.symm.trans h)
  rcases he with he | ⟨_, rfl⟩
  · exact ⟨he.valid_r hr, he.legalStatus⟩
  · exact ⟨hr, legalStatus_code .illegalOp⟩

theorem State.inv_reset : State.reset.Inv :=
  ⟨by decide, by decide, nofun⟩

theorem State.inv_resetEdge (s : State) : s.resetEdge.Inv :=
  ⟨State.inv_reset.resultValid, State.inv_reset.statusLegal, nofun⟩

theorem State.Inv.idleEdge {s : State} (h : s.Inv) : s.idleEdge.Inv :=
  ⟨h.resultValid, h.statusLegal, h.inFlightWf⟩

theorem State.Inv.setHost {s : State} (h : s.Inv) (ps : List Pins) :
    State.Inv { s with host := ps } :=
  ⟨h.resultValid, h.statusLegal, h.inFlightWf⟩

theorem State.Inv.setInFlight {s : State} (h : s.Inv) {c : InFlight} (hc : c.wf) :
    State.Inv { s with inFlight := some c } :=
  ⟨h.resultValid, h.statusLegal, fun _ he => Option.some.inj he ▸ hc⟩

theorem State.Inv.accept {s : State} (h : s.Inv) (c : Command) : (s.accept c).Inv :=
  h.idleEdge.setInFlight (c := ⟨c, Config.lat c⟩) (lat_bounds c)

theorem State.Inv.complete {c : Command} {s t : State} (h : s.Inv) (ht : execute c s = .next t) :
    t.complete.Inv :=
  have ⟨hr, hst⟩ := execute_valid_r_legalStatus ht h.resultValid
  ⟨hr, hst, nofun⟩

theorem StepCase.keeps_inv {s t : State} (h : StepCase s t) (hs : s.Inv) : t.Inv := by
  cases h with
  | idle _ rest _ => exact (hs.setHost rest).idleEdge
  | reset _ rest _ _ => exact State.inv_resetEdge _
  | completed c _ _ t ht => exact hs.complete ht
  | ran _ p rest _ _ _ t ht => exact ((hs.setHost rest).accept p.cmd).complete ht

theorem EdgeCase.keeps_inv {p : Pins} {s t : State} (h : EdgeCase p s t) (hs : s.Inv) : t.Inv := by
  cases h with
  | reset _ => exact s.inv_resetEdge
  | idle _ _ _ => exact hs.idleEdge
  | accepted _ _ _ => exact hs.accept p.cmd
  | waiting _ c hc hw =>
    obtain ⟨_, hmax⟩ := hs.inFlightWf c hc
    have hwf : InFlight.wf { c with wait := c.wait - 1 } :=
      ⟨Nat.le_sub_one_of_lt hw, (Nat.sub_le _ _).trans hmax⟩
    exact hs.idleEdge.setInFlight hwf
  | completed _ c _ _ t ht => exact hs.complete ht

/-! ### A step is determined by its case -/

theorem StepCase.step_eq {s t : State} (h : StepCase s t) : step s = .next t := by
  cases h with
  | idle hf rest hh =>
    rcases hh with ⟨hh, rfl⟩ | ⟨p, hh, hr, hv⟩
    · simp [step, transact, hf, hh, State.idleEdge]
    · simp [step, transact, takeRow, hf, hh, hr, hv]
  | reset p rest hh hr => cases hf : s.inFlight <;> simp [step, transact, hf, hh, hr]
  | completed c hf hh t ht =>
    cases hs : s.host with
    | nil => simp [step, transact, hf, hs, finish_of_execute ht]
    | cons p rest =>
      have hr : p.rst = false := hh p (by simp [hs])
      simp [step, transact, hf, hs, hr, finish_of_execute ht]
  | ran hf p rest hh hr hv t ht =>
    simpa [step, transact, takeRow, hf, hh, hr, hv] using finish_of_execute ht

theorem step_eq_next_iff {s t : State} : step s = .next t ↔ StepCase s t := by
  refine ⟨fun h => ?_, StepCase.step_eq⟩
  obtain ⟨u, hu, hc⟩ := step_cases s
  obtain rfl : u = t := Host.Outcome.next.inj (hu.symm.trans h)
  exact hc

/-! ### The hidden registers (rule R21) -/

theorem execute_setHidden {c : Command} {s t : State} (h : execute c s = .next t) (n : Nat) :
    execute c { s with hidden := n } = .next { t with hidden := n } := by
  obtain ⟨e, he⟩ := execute_effect c
  obtain rfl : e.apply s = t := Host.Outcome.next.inj ((he s).symm.trans h)
  rw [he, e.apply_setHidden]

/-- Other contents of the hidden registers leave the case of a step and all it writes as they are. -/
theorem StepCase.setHidden {s t : State} (h : StepCase s t) (n : Nat) :
    ∃ n', StepCase { s with hidden := n } { t with hidden := n' } := by
  cases h with
  | idle hf rest hh => exact ⟨n + 1, .idle (s := { s with hidden := n }) hf rest hh⟩
  | reset p rest hh hr => exact ⟨n + 1, .reset (s := { s with hidden := n }) p rest hh hr⟩
  | completed c hf hh t ht =>
    exact ⟨n + 1, .completed (s := { s with hidden := n }) c hf hh _ (execute_setHidden ht n)⟩
  | ran hf p rest hh hr hv t ht =>
    exact ⟨n + 1 + 1, .ran (s := { s with hidden := n }) hf p rest hh hr hv _
      (execute_setHidden ht (n + 1))⟩

/-! ### The obligations -/

/-- Settles O55, by the case of the step. -/
theorem stepKeepsInvariant : Obligations.StepKeepsInvariant :=
  fun _ _ hs ht => (step_eq_next_iff.1 ht).keeps_inv hs

/-- Settles O56, by the case of the edge. -/
theorem clockEdgeKeepsInvariant : Obligations.ClockEdgeKeepsInvariant := by
  intro p s hs
  obtain ⟨t, ht, hc⟩ := clockEdge_cases p s
  exact ⟨t, ht, hc.keeps_inv hs⟩

/-- Settles O48, by the effect of the command. -/
theorem commandFrame : Obligations.CommandFrame := by
  intro i s t ht
  obtain ⟨e, hi, he⟩ := exec_effect i
  obtain rfl : e.apply s = t := Host.Outcome.next.inj ((he s).symm.trans ht)
  exact ⟨fun h => hi.apply_r h s, fun h => hi.apply_f h s, Effect.apply_of_st_ne_zero,
    e.apply_handshake s⟩

/-- Settles O60: the step with other hidden contents falls in the same case. -/
theorem hiddenRegistersHaveNoInfluence : Obligations.HiddenRegistersHaveNoInfluence := by
  intro s t n ht
  obtain ⟨n', hc⟩ := (step_eq_next_iff.1 ht).setHidden n
  exact ⟨n', hc.step_eq⟩

/-- Settles O52: every clause is a fact about the one reset state. -/
theorem resetStateValues : Obligations.ResetStateValues :=
  ⟨rfl, rfl, rfl, rfl, rfl, by decide⟩

/-- Settles O54: zero is a valid Decimal and a legal status, and nothing is in progress. -/
theorem resetSatisfiesInvariant : Obligations.ResetSatisfiesInvariant :=
  State.inv_reset

end Sys2Proof.Machine

end

section
/-! SUPPORT. Proofs for the family `20_memory.md`: what the host sees of the core. Results do not
depend on the state (rule R36), a step runs a whole command (rules R13, R30, R32), the outputs hold
while nothing completes (rules R28, R31, R122), and the clocked core and sequences of commands agree
with the atomic step (rules R31, R32). -/

namespace Sys2Proof.Machine

/-! ### Two runs of one command (rules R36, R127)

`exec_effect` says which registers a command may write at most. Two runs leave the same contents
only in a register that was written, so each end of a command is taken at two states together. -/

/-- Two runs of `i` that ended in `t` and `t'` have the same status, and if it is 0 the same
contents in every register that `i` writes. -/
structure SameResult (i : Instr) (t t' : State) : Prop where
  st : t.st = t'.st
  r  : t.st = 0#3 → writesR i = true → t.r = t'.r
  f  : t.st = 0#3 → writesF i = true → t.f = t'.f

theorem sameResult_raise {i : Instr} {c : Status} (hc : c.code ≠ 0#3) (s s' : State) :
    SameResult i (s.raise c) (s'.raise c) :=
  ⟨rfl, fun h => absurd h hc, fun h => absurd h hc⟩

theorem sameResult_done {i : Instr} (hi : writesF i = false) (v : Port) (s s' : State) :
    SameResult i (s.done v) (s'.done v) :=
  ⟨rfl, fun _ _ => rfl, fun _ h => absurd (hi.symm.trans h) Bool.false_ne_true⟩

theorem sameResult_doneFlag {i : Instr} (hi : writesR i = false) (b : Bool) (s s' : State) :
    SameResult i (s.doneFlag b) (s'.doneFlag b) :=
  ⟨rfl, fun _ h => absurd (hi.symm.trans h) Bool.false_ne_true, fun _ _ => rfl⟩

theorem sameResult_doneBoth (i : Instr) (v : Port) (b : Bool) (s s' : State) :
    SameResult i (s.doneBoth v b) (s'.doneBoth v b) :=
  ⟨rfl, fun _ _ => rfl, fun _ _ => rfl⟩

theorem sameResult_endSum {i : Instr} (hi : writesF i = false) (v : Option Triple) (s s' : State) :
    SameResult i (s.endSum v) (s'.endSum v) := by
  cases v with
  | none => exact sameResult_raise (c := .overflow) (by decide) s s'
  | some t => exact sameResult_done hi (enc t) s s'

theorem sameResult_endScaled {i : Instr} (hi : writesF i = false) (sg : Bool)
    (v : Option (Nat × Nat)) (s s' : State) :
    SameResult i (s.endScaled sg v) (s'.endScaled sg v) := by
  cases v with
  | none => exact sameResult_raise (c := .overflow) (by decide) s s'
  | some mt => exact sameResult_done hi _ s s'

theorem withOperand_sameResult {i : Instr} {a : Port} {s s' t t' : State} {k k' : Triple → State}
    (ht : withOperand a s k = .next t) (ht' : withOperand a s' k' = .next t')
    (hk : SameResult i (k (dec a)) (k' (dec a))) :
    SameResult i t t' := by
  cases Host.Outcome.next.inj ht
  cases Host.Outcome.next.inj ht'
  split
  · exact hk
  · exact sameResult_raise (by decide) s s'

theorem withOperands_sameResult {i : Instr} {a b : Port} {s s' t t' : State}
    {k k' : Triple → Triple → State}
    (ht : withOperands a b s k = .next t) (ht' : withOperands a b s' k' = .next t')
    (hk : SameResult i (k (dec a) (dec b)) (k' (dec a) (dec b))) :
    SameResult i t t' := by
  cases Host.Outcome.next.inj ht
  cases Host.Outcome.next.inj ht'
  split
  · exact hk
  · exact sameResult_raise (by decide) s s'

theorem compareWith_sameResult {i : Instr} (hi : writesR i = false) {test : Ordering → Bool}
    {a b : Port} {s s' t t' : State}
    (ht : compareWith test a b s = .next t) (ht' : compareWith test a b s' = .next t') :
    SameResult i t t' :=
  withOperands_sameResult ht ht' (sameResult_doneFlag hi _ s s')

theorem execDiv_sameResult {a b : Port} {s s' t t' : State}
    (ht : execDiv a b s = .next t) (ht' : execDiv a b s' = .next t') :
    SameResult (.div a b) t t' := by
  refine withOperands_sameResult ht ht' ?_
  split
  · exact sameResult_raise (by decide) s s'
  · split
    · exact sameResult_done rfl _ s s'
    · exact sameResult_endScaled rfl _ _ s s'

theorem exec_sameResult {i : Instr} {s s' t t' : State}
    (ht : exec i s = .next t) (ht' : exec i s' = .next t') : SameResult i t t' := by
  cases i with
  | add a b =>
    simp only [exec, execAdd] at ht ht'
    exact withOperands_sameResult ht ht' (sameResult_endSum rfl _ s s')
  | sub a b =>
    simp only [exec, execSub] at ht ht'
    exact withOperands_sameResult ht ht' (sameResult_endSum rfl _ s s')
  | mul a b =>
    simp only [exec, execMul] at ht ht'
    exact withOperands_sameResult ht ht' (sameResult_endScaled rfl _ _ s s')
  | div a b => exact execDiv_sameResult ht ht'
  | cmpeq a b => exact compareWith_sameResult rfl ht ht'
  | cmpne a b => exact compareWith_sameResult rfl ht ht'
  | cmplt a b => exact compareWith_sameResult rfl ht ht'
  | cmple a b => exact compareWith_sameResult rfl ht ht'
  | cmpgt a b => exact compareWith_sameResult rfl ht ht'
  | cmpge a b => exact compareWith_sameResult rfl ht ht'
  | trunc a =>
    simp only [exec, execTrunc] at ht ht'
    exact withOperand_sameResult ht ht' (sameResult_done rfl _ s s')
  | floor a =>
    simp only [exec, execFloor] at ht ht'
    exact withOperand_sameResult ht ht' (sameResult_done rfl _ s s')
  | round a =>
    simp only [exec, execRound] at ht ht'
    exact withOperand_sameResult ht ht' (sameResult_done rfl _ s s')
  | neg a =>
    simp only [exec, execNeg] at ht ht'
    exact withOperand_sameResult ht ht' (sameResult_done rfl _ s s')
  | align a b =>
    simp only [exec, execAlign] at ht ht'
    exact withOperands_sameResult ht ht' (sameResult_doneBoth _ _ _ s s')

/-! ### States that agree on R, ST and F (rule R14) -/

/-- The two states have the same architectural state (rule R14). -/
structure State.SameRegs (s t : State) : Prop where
  r  : s.r = t.r
  st : s.st = t.st
  f  : s.f = t.f

/-- A command has the same effect on states that agree on R, ST and F. -/
theorem State.SameRegs.apply {s t : State} (h : s.SameRegs t) (e : Effect) :
    (e.apply s).SameRegs (e.apply t) := by
  cases e with
  | fail c => exact ⟨h.r, rfl, h.f⟩
  | decimal v => exact ⟨rfl, rfl, h.f⟩
  | flag b => exact ⟨h.r, rfl, rfl⟩
  | both v b => exact ⟨rfl, rfl, rfl⟩

theorem State.SameRegs.execute {c : Command} {s s' t t' : State} (h : s.SameRegs s')
    (ht : execute c s = .next t) (ht' : execute c s' = .next t') : t.SameRegs t' := by
  obtain ⟨e, he⟩ := execute_effect c
  obtain rfl : e.apply s = t := Host.Outcome.next.inj ((he s).symm.trans ht)
  obtain rfl : e.apply s' = t' := Host.Outcome.next.inj ((he s').symm.trans ht')
  exact h.apply e

theorem State.SameRegs.accept {s t : State} (h : s.SameRegs t) (c : Command) (ps : List Pins) :
    (State.accept c { s with host := ps }).SameRegs t :=
  ⟨h.r, h.st, h.f⟩

theorem State.SameRegs.complete {s t : State} (h : s.SameRegs t) : s.complete.SameRegs t :=
  ⟨h.r, h.st, h.f⟩

theorem State.SameRegs.complete_outputs {s t : State} (h : s.SameRegs t) :
    s.complete.outputs = t.complete.outputs := by
  simp [State.outputs, State.busy, h.r, h.st, h.f]

/-! ### Steps -/

theorem execute_of_decode {c : Command} {i : Instr} (h : decode c = .ok i) (s : State) :
    execute c s = exec i s := by
  simp [execute, h]

theorem execute_host {c : Command} {s t : State} (h : execute c s = .next t) : t.host = s.host := by
  obtain ⟨e, he⟩ := execute_effect c
  obtain rfl : e.apply s = t := Host.Outcome.next.inj ((he s).symm.trans h)
  obtain ⟨_, _, hhost, _⟩ := e.apply_handshake s
  exact hhost

theorem StepCase.inFlight_eq_none {s t : State} (h : StepCase s t) : t.inFlight = none := by
  cases h with
  | idle hf _ _ => exact hf
  | reset _ _ _ _ => rfl
  | completed _ _ _ _ _ => rfl
  | ran _ _ _ _ _ _ _ _ => rfl

/-- `rsp_valid` is high after a step exactly when the step ran a command (rule R31). -/
theorem StepCase.rspValid_iff {s t : State} (h : StepCase s t) :
    t.rspValid = true ↔
      (∀ p ∈ s.host.head?, p.rst = false) ∧
      (s.inFlight.isSome = true ∨ ∃ p ∈ s.host.head?, p.cmdValid = true) := by
  cases h with
  | idle hf rest hh =>
    rcases hh with ⟨hh, _⟩ | ⟨p, hh, _, hv⟩
    · simp [hf, hh]
    · simp [hf, hh, hv]
  | reset p rest hh hr => simp [hh, hr]
  | completed c hf hh _ _ => simpa [hf] using hh
  | ran hf p rest hh hr hv _ _ => simp [hh, hr, hv]

/-! ### Edges of the clock -/

theorem EdgeCase.clockEdge_eq {p : Pins} {s t : State} (h : EdgeCase p s t) :
    clockEdge p s = .next t := by
  cases h with
  | reset hr => simp [clockEdge, hr]
  | idle hr hf hv => simp [clockEdge, hr, hf, hv]
  | accepted hr hf hv => simp [clockEdge, hr, hf, hv]
  | waiting hr c hf hw => simp [clockEdge, hr, hf, Nat.not_le.2 hw]
  | completed hr c hf hw t ht => simp [clockEdge, hr, hf, hw, finish_of_execute ht]

/-- An edge of a free core completes nothing. -/
theorem EdgeCase.rspValid_of_free {p : Pins} {s t : State} (h : EdgeCase p s t)
    (hs : s.inFlight = none) : t.rspValid = false := by
  cases h with
  | reset _ => rfl
  | idle _ _ _ => rfl
  | accepted _ _ _ => rfl
  | waiting _ c hf _ => exact absurd (hs.symm.trans hf) nofun
  | completed _ c hf _ _ _ => exact absurd (hs.symm.trans hf) nofun

theorem clockRun_cons_of_edge {p : Pins} {s t : State} (h : clockEdge p s = .next t)
    (ps : List Pins) : clockRun (p :: ps) s = clockRun ps t := by
  simp [clockRun, h]

theorem clockRun_append_of_run {ps : List Pins} {s t : State} (h : clockRun ps s = .next t)
    (qs : List Pins) : clockRun (ps ++ qs) s = clockRun qs t := by
  induction ps generalizing s with
  | nil => rw [List.nil_append, Host.Outcome.next.inj h]
  | cons p ps ih =>
    obtain ⟨u, hu, _⟩ := clockEdge_cases p s
    rw [clockRun_cons_of_edge hu] at h
    rw [List.cons_append, clockRun_cons_of_edge hu, ih h]

/-! ### A free core that is offered nothing (rules R36, R122) -/

theorem State.idleEdge_outputs_of_free {s : State} (h : s.inFlight = none) :
    s.idleEdge.outputs = { s.outputs with cmdReady := true, rspValid := false } := by
  simp [State.outputs, State.busy, h]

/-- A run of idle edges holds R, ST and F; `rsp_valid` is low as soon as there is one edge. -/
theorem clockRun_idle (ps : List Pins) {s : State} (hs : s.inFlight = none)
    (hps : ∀ p ∈ ps, p.rst = false ∧ p.cmdValid = false) :
    ∃ t, clockRun ps s = .next t ∧
      t.outputs = { s.outputs with cmdReady := true, rspValid := s.rspValid && ps.isEmpty } ∧
      t.inFlight = none := by
  induction ps generalizing s with
  | nil => exact ⟨s, rfl, by simp [State.outputs, State.busy, hs], hs⟩
  | cons p ps ih =>
    obtain ⟨⟨hr, hv⟩, hps⟩ := List.forall_mem_cons.1 hps
    have hedge : clockEdge p s = .next s.idleEdge := (EdgeCase.idle hr hs hv).clockEdge_eq
    obtain ⟨t, ht, hout, hf⟩ := ih (s := s.idleEdge) hs hps
    refine ⟨t, (clockRun_cons_of_edge hedge ps).trans ht, ?_, hf⟩
    simpa [State.idleEdge_outputs_of_free hs] using hout

/-- A step of a free core whose host drives nothing, or a row that offers nothing, is an idle
edge. -/
theorem step_idle {s : State} (hs : s.inFlight = none)
    (hh : ∀ p ∈ s.host.head?, p.rst = false ∧ p.cmdValid = false) :
    step s = .next (State.idleEdge { s with host := s.host.tail }) := by
  refine (StepCase.idle hs s.host.tail ?_).step_eq
  cases hl : s.host with
  | nil => exact .inl ⟨rfl, rfl⟩
  | cons p rest =>
    obtain ⟨hr, hv⟩ := hh p (by simp [hl])
    exact .inr ⟨p, rfl, hr, hv⟩

/-! ### A command between acceptance and completion (rule R31) -/

/-- `s` with the command `c` in progress and `rsp_valid` low, the hidden registers named by `n`. -/
def State.running (s : State) (c : InFlight) (n : Nat) : State :=
  { s with inFlight := some c, rspValid := false, hidden := n }

theorem State.accept_eq_running (s : State) (c : Command) :
    s.accept c = s.running ⟨c, Config.lat c⟩ (s.hidden + 1) := rfl

theorem State.running_outputs (s : State) (c : InFlight) (n : Nat) :
    (s.running c n).outputs = { s.outputs with cmdReady := false, rspValid := false } := rfl

/-- The countdown leaves R, ST and F as the acceptance edge left them. -/
theorem State.running_sameRegs_accept (s : State) (c : InFlight) (n : Nat) (ps : List Pins) :
    (s.running c n).SameRegs (State.accept c.cmd { s with host := ps }) :=
  ⟨rfl, rfl, rfl⟩

/-- A run of fewer edges than the command has left only counts down. -/
theorem clockRun_running (ps : List Pins) (s : State) {c : InFlight} (n : Nat)
    (hps : ∀ q ∈ ps, q.rst = false) (hw : ps.length < c.wait) :
    clockRun ps (s.running c n) =
      .next (s.running { c with wait := c.wait - ps.length } (n + ps.length)) := by
  induction ps generalizing c n with
  | nil => rfl
  | cons q ps ih =>
    obtain ⟨hr, hps⟩ := List.forall_mem_cons.1 hps
    rw [List.length_cons] at hw
    have hedge : clockEdge q (s.running c n) =
        .next (s.running { c with wait := c.wait - 1 } (n + 1)) :=
      (EdgeCase.waiting hr c rfl (by omega)).clockEdge_eq
    rw [clockRun_cons_of_edge hedge, ih (n + 1) hps (by simp only; omega), List.length_cons,
      Nat.sub_sub, Nat.add_assoc, Nat.add_comm ps.length 1]

/-- A run of as many edges as the command has left completes it at the last of them. -/
theorem clockRun_running_completes {ps : List Pins} {s t : State} {c : InFlight} {n : Nat}
    (hps : ∀ q ∈ ps, q.rst = false) (hlen : ps.length = c.wait) (hw : 1 ≤ c.wait)
    (ht : execute c.cmd (s.running { c with wait := 1 } (n + (c.wait - 1))) = .next t) :
    clockRun ps (s.running c n) = .next t.complete := by
  obtain ⟨qs, q, rfl⟩ := (List.eq_nil_or_concat' ps).resolve_left
    (List.ne_nil_of_length_pos (by omega))
  obtain ⟨hqs, hq⟩ := List.forall_mem_append.1 hps
  rw [List.length_append, List.length_singleton] at hlen
  have hqlen : qs.length = c.wait - 1 := by omega
  have hcount := clockRun_running qs s n hqs (by omega : qs.length < c.wait)
  rw [hqlen, Nat.sub_sub_self hw] at hcount
  have hlast : clockEdge q (s.running { c with wait := 1 } (n + (c.wait - 1))) = .next t.complete :=
    (EdgeCase.completed (hq q (by simp)) { c with wait := 1 } rfl le_rfl t ht).clockEdge_eq
  rw [clockRun_append_of_run hcount, clockRun_cons_of_edge hlast, clockRun]

/-! ### Sequences of commands (rules R32, R134) -/

theorem run_succ_of_step {s t : State} (h : step s = .next t) (k : Nat) :
    Host.Core.run Sys2Proof.core (k + 1) s = Host.Core.run Sys2Proof.core k t := by
  have hcore : Sys2Proof.core.step s = .next t := h
  simp [Host.Core.run, hcore]

/-- A free core runs the command its host offers, from the state after its acceptance. -/
theorem step_offer {c : Command} {s t : State} {rest : List Pins} (hs : s.inFlight = none)
    (hh : s.host = offer c :: rest)
    (ht : execute c (State.accept c { s with host := rest }) = .next t) :
    step s = .next t.complete :=
  (StepCase.ran hs (offer c) rest hh rfl rfl t ht).step_eq

/-- Stepping a free core through a list of offered commands leaves the R, ST and F of the fold, from
any start `v` of the fold that agrees with the core on R, ST and F. -/
theorem run_offers_sameRegs (cs : List Command) {s v : State} (hs : s.inFlight = none)
    (hh : s.host = cs.map offer) (hv : s.SameRegs v) :
    ∃ t u : State, Host.Core.run Sys2Proof.core cs.length s = .next t ∧ executeAll cs v = .next u ∧
      t.SameRegs u ∧ t.inFlight = none ∧ t.host = [] := by
  induction cs generalizing s v with
  | nil => exact ⟨s, v, rfl, rfl, hv, hs, hh⟩
  | cons c cs ih =>
    obtain ⟨s₁, hs₁, _⟩ := execute_ends c (State.accept c { s with host := cs.map offer })
    obtain ⟨v₁, hv₁, _⟩ := execute_ends c v
    obtain ⟨t, u, ht, hu, htu⟩ :=
      ih (s := s₁.complete) rfl (execute_host hs₁) ((hv.accept c _).execute hs₁ hv₁).complete
    refine ⟨t, u, ?_, by simpa [executeAll, hv₁] using hu, htu⟩
    rw [List.length_cons, run_succ_of_step (step_offer hs hh hs₁)]
    exact ht

/-! ### The obligations -/

/-- Settles O49, by the command. -/
theorem resultDependsOnTheCommandAlone : Obligations.ResultDependsOnTheCommandAlone := by
  intro i s s' t t' ht ht'
  have h := exec_sameResult ht ht'
  exact ⟨h.st, h.r, h.f⟩

/-- Settles O50: the two cases of a step that runs a command. -/
theorem stepRunsTheDecodedCommand : Obligations.StepRunsTheDecodedCommand := by
  constructor
  · intro s p rest i hs hh hr hv hd
    obtain ⟨t, ht, _⟩ := exec_ends i (State.accept p.cmd { s with host := rest })
    exact ⟨t, ht, (StepCase.ran hs p rest hh hr hv t ((execute_of_decode hd _).trans ht)).step_eq⟩
  · intro s c i hs hh hd
    obtain ⟨t, ht, _⟩ := exec_ends i s
    exact ⟨t, ht, (StepCase.completed c hs hh t ((execute_of_decode hd s).trans ht)).step_eq⟩

/-- Settles O51, by the case of the step. -/
theorem stepAlwaysCompletes : Obligations.StepAlwaysCompletes := by
  intro s
  obtain ⟨t, ht, hc⟩ := step_cases s
  exact ⟨t, ht, hc.inFlight_eq_none, hc.rspValid_iff⟩

/-- Settles O57: a waiting edge, an idle edge, a run of idle edges, an idle step. -/
theorem busyOrIdleCoreHoldsItsOutputs : Obligations.BusyOrIdleCoreHoldsItsOutputs := by
  refine ⟨?_, ?_, fun ps s hs hps => clockRun_idle ps hs hps, ?_⟩
  · intro s c p hs hw hr
    exact ⟨_, (EdgeCase.waiting hr c hs hw).clockEdge_eq, rfl, rfl,
      fun q hq => (EdgeCase.waiting hq c hs hw).clockEdge_eq⟩
  · intro s p hs hr hv
    exact ⟨_, (EdgeCase.idle hr hs hv).clockEdge_eq, State.idleEdge_outputs_of_free hs, hs,
      fun q hq hqv => (EdgeCase.idle hq hs hqv).clockEdge_eq⟩
  · intro s hs hh
    exact ⟨_, step_idle hs hh, State.idleEdge_outputs_of_free hs, hs, rfl⟩

/-- Settles O58: the edges after acceptance count down, the last of them completes the command with
the effect the atomic step has, and the edge after that completes nothing. -/
theorem clockedCommandMatchesStep : Obligations.ClockedCommandMatchesStep := by
  intro s p ps hs hr hv hps
  obtain ⟨hlat, hmax⟩ := lat_bounds p.cmd
  have haccept : clockRun (p :: ps) s =
      clockRun ps (s.running ⟨p.cmd, Config.lat p.cmd⟩ (s.hidden + 1)) := by
    rw [← State.accept_eq_running]
    exact clockRun_cons_of_edge (EdgeCase.accepted hr hs hv).clockEdge_eq ps
  refine ⟨hlat, hmax, fun hlen => ?_, fun hlen => ?_⟩
  · exact ⟨_, haccept.trans (clockRun_running ps s _ hps hlen), State.running_outputs _ _ _⟩
  · obtain ⟨t, ht, _⟩ := execute_ends p.cmd
      (s.running ⟨p.cmd, 1⟩ (s.hidden + 1 + (Config.lat p.cmd - 1)))
    obtain ⟨u, hu, _⟩ := execute_ends p.cmd (State.accept p.cmd { s with host := [] })
    have hregs : t.SameRegs u := (s.running_sameRegs_accept _ _ []).execute ht hu
    have hstep : step { s with host := [p] } = .next u.complete :=
      (StepCase.ran (s := { s with host := [p] }) hs p [] rfl hr hv u hu).step_eq
    refine ⟨_, _, haccept.trans (clockRun_running_completes hps hlen hlat ht), hstep,
      hregs.complete_outputs, rfl, rfl, fun q _ => ?_⟩
    obtain ⟨w, hw, hc⟩ := clockEdge_cases q t.complete
    exact ⟨w, hw, hc.rspValid_of_free rfl⟩

/-- Settles O59, by induction on the sequence. -/
theorem commandSequenceIsTheFoldOfExec : Obligations.CommandSequenceIsTheFoldOfExec := by
  intro cs s hs hh
  obtain ⟨t, u, ht, hu, hregs, hf, hhost⟩ := run_offers_sameRegs cs hs hh ⟨rfl, rfl, rfl⟩
  exact ⟨t, u, ht, hu, hregs.r, hregs.st, hregs.f, hf, hhost⟩

end Sys2Proof.Machine

end

section
/-! SUPPORT. Proofs for the family `30_encoding.md`: the decoder and the encoder of commands (rules R43,
R45, R46, R48, R118) and the Decimal format (rules R37 to R40). -/

namespace Sys2Proof

/-! ### The encoder and the decoder undo each other (rules R43, R45) -/

theorem decode_encode (i : Instr) : decode (encode i) = .ok i := by
  cases i <;> rfl

/-- Rule R48: with a one-operand command's opcode and first operand, any `cmd_b` decodes to it. -/
theorem decode_of_oneOperand {i : Instr} (hi : Machine.oneOperand i = true) (b : Port) :
    decode ⟨(encode i).op, (encode i).a, b⟩ = .ok i := by
  cases i with
  | trunc | floor | round | neg => rfl
  | _ => cases hi

/-- An opcode of the map is the one the encoder gives the command it selects. -/
theorem op_encode_build {op : Opcode} {m : Mnemonic} (h : mnemonicOf op = some m) (a b : Port) :
    (encode (Instr.build m a b)).op = op := by
  have hmap : ∀ op, mnemonicOf op = some m → (encode (Instr.build m 0 0)).op = op := by
    cases m <;> decide
  have hops : (encode (Instr.build m a b)).op = (encode (Instr.build m 0 0)).op := by
    cases m <;> rfl
  exact hops.trans (hmap op h)

theorem a_encode_build (m : Mnemonic) (a b : Port) : (encode (Instr.build m a b)).a = a := by
  cases m <;> rfl

theorem b_encode_build {m : Mnemonic} {a b : Port}
    (h : Machine.oneOperand (Instr.build m a b) = false) : (encode (Instr.build m a b)).b = b := by
  cases m with
  | trunc | floor | round | neg => cases h
  | _ => rfl

/-- What decodes has an opcode of the map, and is the command that opcode makes of the operands. -/
theorem exists_build_of_decode {c : Command} {i : Instr} (h : decode c = .ok i) :
    ∃ m, mnemonicOf c.op = some m ∧ i = Instr.build m c.a c.b := by
  rcases decode_cases c with ⟨m, hm, hd⟩ | ⟨_, hd⟩
  · exact ⟨m, hm, Except.ok.inj (h.symm.trans hd)⟩
  · exact absurd (h.symm.trans hd) nofun

/-- The reserved opcodes are exactly those no command is encoded with (rules R45, R46). -/
theorem mem_reservedOpcodes_iff (op : Opcode) :
    op ∈ reservedOpcodes ↔ ∀ i : Instr, (encode i).op ≠ op := by
  rw [← mnemonicOf_isNone_iff]
  constructor
  · rintro h i rfl
    obtain ⟨m, hm, _⟩ := exists_build_of_decode (decode_encode i)
    exact absurd (h.symm.trans hm) nofun
  · intro h
    cases hm : mnemonicOf op with
    | none => rfl
    | some m => exact absurd (op_encode_build hm 0 0) (h _)

/-! ### The command as one number (rule R50, log entry 2) -/

/-- The three fields do not overlap, so each is read back from the number. -/
theorem ofTableWord_toNumber (c : Command) : Command.ofTableWord 261 c.toNumber = c := by
  obtain ⟨op, a, b⟩ := c
  have hop := op.isLt
  have ha := a.isLt
  have hb := b.isLt
  simp only [Command.ofTableWord, Command.toNumber, Command.mk.injEq]
  refine ⟨?_, ?_, ?_⟩ <;> apply BitVec.eq_of_toNat_eq <;> rw [BitVec.toNat_ofNat] <;> omega

/-! ### The second operand of a one-operand command (rule R48) -/

/-- The opcodes of the group 0x10 to 0x13 are those of the one-operand commands (rule R45). -/
theorem exists_oneOperand_of_mem {op : Opcode} (h : op ∈ [0x10#5, 0x11#5, 0x12#5, 0x13#5])
    (a : Port) : ∃ i, Machine.oneOperand i = true ∧ (encode i).op = op ∧ (encode i).a = a := by
  simp only [List.mem_cons, List.not_mem_nil, or_false] at h
  rcases h with rfl | rfl | rfl | rfl
  · exact ⟨.trunc a, rfl, rfl, rfl⟩
  · exact ⟨.floor a, rfl, rfl, rfl⟩
  · exact ⟨.round a, rfl, rfl, rfl⟩
  · exact ⟨.neg a, rfl, rfl, rfl⟩

end Sys2Proof

namespace Sys2Proof.Machine

/-! ### A reserved opcode (rules R46, R118) -/

theorem execute_of_reserved {c : Command} (h : c.op ∈ reservedOpcodes) (s : State) :
    execute c s = .next (s.raise .illegalOp) := by
  have hd : decode c = .error (.reservedOpcode c.op) := by
    simp [decode, (mnemonicOf_isNone_iff c.op).2 h]
  simp [execute, hd]

/-! ### The Decimal format (rules R37 to R40) -/

/-- A concatenation is the number with the left part moved above the right part. -/
theorem toNat_append_eq_add {m n : Nat} (x : BitVec m) (y : BitVec n) :
    (x ++ y).toNat = x.toNat * 2 ^ n + y.toNat := by
  rw [BitVec.toNat_append, ← Nat.shiftLeft_add_eq_or_of_lt y.isLt, Nat.shiftLeft_eq]

/-- Every 128-bit value is its five fields, from the sign down to the mantissa (rule R37). -/
theorem port_eq_append (d : Port) :
    d = BitVec.ofBool (signField d) ++ reservedHigh d ++ scaleField d ++ reservedLow d
      ++ mantissaField d := by
  have hsign : BitVec.ofBool (signField d) = d.extractLsb' 127 1 := by
    ext i hi
    obtain rfl : i = 0 := by omega
    simp [signField]
  rw [hsign, reservedHigh, scaleField, reservedLow, mantissaField,
    BitVec.extractLsb'_append_extractLsb'_eq_extractLsb',
    BitVec.extractLsb'_append_extractLsb'_eq_extractLsb',
    BitVec.extractLsb'_append_extractLsb'_eq_extractLsb',
    BitVec.extractLsb'_append_extractLsb'_eq_extractLsb']
  · exact BitVec.extractLsb'_eq_self.symm
  all_goals rfl

theorem valid_iff (d : Port) :
    valid d = true ↔ reservedLow d = 0 ∧ reservedHigh d = 0 ∧ (dec d).sc ≤ Config.smax := by
  simp [valid, dec, and_assoc]

theorem signField_enc (t : Triple) : signField (enc t) = t.sg := by
  rw [signField, getLsbD_enc, if_neg (by omega), if_neg (by omega), if_neg (by omega),
    if_neg (by omega)]
  simp

theorem mantissaField_enc (t : Triple) : mantissaField (enc t) = t.m :=
  BitVec.extractLsb'_append_eq_right

/-- A legal scale fits the scale field. -/
theorem mod_of_scale_le {sc : Nat} (h : sc ≤ Config.smax) : sc % 2 ^ 8 = sc :=
  Nat.mod_eq_of_lt (h.trans_lt (by decide))

theorem toNat_enc {t : Triple} (h : t.sc ≤ Config.smax) :
    (enc t).toNat = t.sg.toNat * 2 ^ 127 + t.sc * 2 ^ 112 + t.m.toNat := by
  simp only [enc, toNat_append_eq_add, BitVec.toNat_ofBool, BitVec.toNat_ofNat, mod_of_scale_le h]
  omega

theorem dec_enc {t : Triple} (h : t.sc ≤ Config.smax) : dec (enc t) = t := by
  rw [dec, signField_enc, mantissaField_enc, scaleField_enc, BitVec.toNat_ofNat, mod_of_scale_le h]

/-- A valid Decimal has nothing but its sign, scale and mantissa. -/
theorem enc_dec {d : Port} (h : valid d = true) : enc (dec d) = d := by
  obtain ⟨hlow, hhigh, _⟩ := (valid_iff d).1 h
  conv_rhs => rw [port_eq_append d, hlow, hhigh]
  simp [enc, dec]

/-! ### The magnitude of a value (rules R10, R38) -/

theorem abs_val (x : Triple) : |x.val| = (x.m.toNat : ℚ) / 10 ^ x.sc := by
  cases hx : x.sg <;> simp [Triple.val, hx, abs_div]

theorem abs_val_le_max96 (x : Triple) : |x.val| ≤ (Config.max96 : ℚ) := by
  have hm : x.m.toNat ≤ Config.max96 := Nat.le_pred_of_lt x.m.isLt
  calc |x.val| = (x.m.toNat : ℚ) / 10 ^ x.sc := abs_val x
    _ ≤ (x.m.toNat : ℚ) := div_le_self (Nat.cast_nonneg _) (one_le_pow₀ (by norm_num))
    _ ≤ (Config.max96 : ℚ) := Nat.cast_le.2 hm

/-! ### The obligations -/

/-- Settles O1: the number gives the fields back, and the fields the command. -/
theorem encodedCommandNumberDecodesBack : Obligations.EncodedCommandNumberDecodesBack := by
  intro i
  rw [decodeTableWord, ofTableWord_toNumber, decode_encode]

/-- Settles O2: one way by the row of the map that answered, the other by the format of `i`. -/
theorem decodeMatchesOpcodeMap : Obligations.DecodeMatchesOpcodeMap := by
  intro c i
  constructor
  · intro h
    obtain ⟨m, hm, rfl⟩ := exists_build_of_decode h
    exact ⟨(op_encode_build hm _ _).symm, (a_encode_build m _ _).symm,
      fun hi => (b_encode_build hi).symm⟩
  · obtain ⟨op, a, b⟩ := c
    rintro ⟨rfl, rfl, hb⟩
    cases hi : oneOperand i with
    | true => exact decode_of_oneOperand hi b
    | false =>
      obtain rfl := hb hi
      exact decode_encode i

/-- Settles O3: the core runs the command like any other, and its effect is to raise ILLEGAL_OP. -/
theorem reservedOpcodeEndsIllegal : Obligations.ReservedOpcodeEndsIllegal := by
  refine ⟨mem_reservedOpcodes_iff, fun c s rest hop hs hh => ?_⟩
  exact ⟨_, step_offer hs hh (execute_of_reserved hop _), rfl, rfl, rfl, rfl, rfl, rfl⟩

/-- Settles O5, field by field. -/
theorem decimalEncodingIsTheNumber : Obligations.DecimalEncodingIsTheNumber := by
  refine ⟨fun t ht => ⟨toNat_enc ht, signField_enc t, reservedHigh_enc t, ?_, reservedLow_enc t,
    mantissaField_enc t, dec_enc ht⟩, fun d hd => enc_dec hd⟩
  exact congrArg Triple.sc (dec_enc ht)

/-- Settles O6: the three field tests read as numbers. -/
theorem validDecimalFields : Obligations.ValidDecimalFields := by
  refine ⟨fun d => ?_, fun sg m sc hsc => valid_enc hsc, fun d _ => abs_val_le_max96 (dec d)⟩
  rw [valid_iff, ← BitVec.toNat_inj, ← BitVec.toNat_inj]
  simp only [reservedLow, reservedHigh, dec, scaleField, BitVec.extractLsb'_toNat,
    Nat.shiftRight_eq_div_pow]
  rfl

/-- Settles O4: three of the words are encodings, and NEG ignores what stands on `cmd_b`. -/
theorem specCommandWordsDecode : Obligations.SpecCommandWordsDecode :=
  ⟨decode_encode (.add _ _), decode_encode (.cmplt _ _), decode_of_oneOperand (i := .neg _) rfl _,
    decode_encode (.align _ _)⟩

/-- Settles O45: whatever `cmd_b` is, the command decodes to the same instruction. -/
theorem secondOperandOfOneOperandCommandIsIgnored :
    Obligations.SecondOperandOfOneOperandCommandIsIgnored := by
  intro op hop a b b' s
  obtain ⟨i, hi, rfl, rfl⟩ := exists_oneOperand_of_mem hop a
  rw [execute_of_decode (decode_of_oneOperand hi b), execute_of_decode (decode_of_oneOperand hi b')]

end Sys2Proof.Machine

end

section
/-! SUPPORT. Proofs for the family `40_bitword_and_units.md`: the bit primitives (rules R54, R55) and
the structures the spec names for the units (rules R56 to R72), each tied to its unit's value by what
it has computed after `k` of its steps. -/

namespace Sys2Proof.Machine

/-! ### One bit of a value (rules R54, R55) -/

/-- Setting a bit that is 0 adds its weight. -/
theorem toNat_or_twoPow {n i : Nat} {x : BitVec n} (hi : i < n) (hx : x.getLsbD i = false) :
    (x ||| BitVec.twoPow n i).toNat = x.toNat + 2 ^ i := by
  have hdisj : x &&& BitVec.twoPow n i = 0#n := by
    rw [BitVec.and_twoPow, hx]
    rfl
  rw [← BitVec.add_eq_or_of_and_eq_zero _ _ hdisj, BitVec.toNat_add_of_and_eq_zero hdisj,
    BitVec.toNat_twoPow_of_lt hi]

/-- Two values that differ in nothing but bit `i`, 0 in the one and 1 in the other. -/
theorem toNat_eq_add_of_raised_bit {n i : Nat} {x y : BitVec n} (hi : i < n)
    (h : ∀ j, j ≠ i → x.getLsbD j = y.getLsbD j) (hx : x.getLsbD i = false)
    (hy : y.getLsbD i = true) : y.toNat = x.toNat + 2 ^ i := by
  have hor : y = x ||| BitVec.twoPow n i := by
    refine BitVec.eq_of_getLsbD_eq fun j _ => ?_
    by_cases hji : j = i
    · simp [hji, hy, hi]
    · simp [h j hji, Ne.symm hji]
  rw [hor, toNat_or_twoPow hi hx]

/-- Two values that agree on every bit but `i` differ by that bit's weight. -/
theorem toNat_of_getLsbD_eq_off {n i : Nat} {x y : BitVec n} (hi : i < n)
    (h : ∀ j, j ≠ i → x.getLsbD j = y.getLsbD j) :
    x.toNat + 2 ^ i * (y.getLsbD i).toNat = y.toNat + 2 ^ i * (x.getLsbD i).toNat := by
  by_cases heq : x.getLsbD i = y.getLsbD i
  · have hxy : x = y := BitVec.eq_of_getLsbD_eq fun j _ =>
      if hji : j = i then hji ▸ heq else h j hji
    rw [hxy]
  · cases hx : x.getLsbD i with
    | false =>
      have hy : y.getLsbD i = true := by simpa [hx] using heq
      simp [toNat_eq_add_of_raised_bit hi h hx hy, hy]
    | true =>
      have hy : y.getLsbD i = false := by simpa [hx] using heq
      simp [toNat_eq_add_of_raised_bit hi (fun j hj => (h j hj).symm) hy hx, hy]

theorem getLsbD_setbit32 {w : Word32} {i j : Nat} (hi : i < 32) :
    (setbit32 w i).getLsbD j = if j = i then true else w.getLsbD j := by
  by_cases h : j = i
  · simp [setbit32, h, hi]
  · simp [setbit32, h, Ne.symm h]

theorem getLsbD_clearbit32 {w : Word32} {i j : Nat} (hi : i < 32) :
    (clearbit32 w i).getLsbD j = if j = i then false else w.getLsbD j := by
  by_cases h : j = i
  · simp [clearbit32, h, hi]
  · simpa [clearbit32, h, Ne.symm h] using w.lt_of_getLsbD

theorem getLsbD_togglebit32 {w : Word32} {i j : Nat} (hi : i < 32) :
    (togglebit32 w i).getLsbD j = if j = i then !w.getLsbD i else w.getLsbD j := by
  by_cases h : j = i
  · simp [togglebit32, h, hi]
  · simp [togglebit32, h, Ne.symm h]

/-! ### One word of a value (rule R55) -/

theorem getLsbD_word {n w i : Nat} (x : BitVec n) (hi : i < 32) :
    (word x w).getLsbD i = x.getLsbD (32 * w + i) := by
  simp [word, hi]

/-- Replacing a word leaves every bit outside it. -/
theorem getLsbD_withWord {n w j : Nat} (x : BitVec n) (v : Word32) (hj : j < n) :
    (withWord x w v).getLsbD j = if j / 32 = w then v.getLsbD (j % 32) else x.getLsbD j := by
  have hones : ∀ i < 32, (0xFFFFFFFF#32).getLsbD i = true := by decide
  by_cases hw : j / 32 = w
  · have hlow : ¬ j < 32 * w := by omega
    have hoff : j - 32 * w = j % 32 := by omega
    have h32 : j % 32 < 32 := Nat.mod_lt _ (by decide)
    simp [withWord, hw, hj, hlow, hoff, hones _ h32]
  · have hout : j < 32 * w ∨ 32 ≤ j - 32 * w := by omega
    rcases hout with h | h
    · simp [withWord, hw, hj, h]
    · simp [withWord, hw, hj, BitVec.getLsbD_of_ge _ _ h]

/-- A word operation that touches only bit `g mod 32` of word `g div 32` touches only bit `g`. -/
theorem getLsbD_withWord_of_off {n g j : Nat} (x : BitVec n) {v : Word32} (hj : j < n)
    (h : ∀ k, k ≠ g % 32 → v.getLsbD k = (word x (g / 32)).getLsbD k) :
    (withWord x (g / 32) v).getLsbD j = if j = g then v.getLsbD (g % 32) else x.getLsbD j := by
  rw [getLsbD_withWord x v hj]
  by_cases hjg : j = g
  · simp [hjg]
  · rw [if_neg hjg]
    split_ifs with hw
    · rw [h _ (by omega), getLsbD_word x (Nat.mod_lt _ (by decide)), ← hw, Nat.div_add_mod]
    · rfl

theorem getbit_eq_getLsbD {n : Nat} (x : BitVec n) (g : Nat) : getbit x g = x.getLsbD g := by
  rw [getbit, getbit32, getLsbD_word x (Nat.mod_lt _ (by decide)), Nat.div_add_mod]

theorem getLsbD_setbit {n g j : Nat} (x : BitVec n) (hj : j < n) :
    (setbit x g).getLsbD j = if j = g then true else x.getLsbD j := by
  have hg : g % 32 < 32 := Nat.mod_lt _ (by decide)
  rw [setbit, getLsbD_withWord_of_off x hj fun k hk => by rw [getLsbD_setbit32 hg, if_neg hk],
    getLsbD_setbit32 hg, if_pos rfl]

theorem getLsbD_clearbit {n g j : Nat} (x : BitVec n) (hj : j < n) :
    (clearbit x g).getLsbD j = if j = g then false else x.getLsbD j := by
  have hg : g % 32 < 32 := Nat.mod_lt _ (by decide)
  rw [clearbit, getLsbD_withWord_of_off x hj fun k hk => by rw [getLsbD_clearbit32 hg, if_neg hk],
    getLsbD_clearbit32 hg, if_pos rfl]

theorem getLsbD_togglebit {n g j : Nat} (x : BitVec n) (hj : j < n) :
    (togglebit x g).getLsbD j = if j = g then !x.getLsbD g else x.getLsbD j := by
  have hg : g % 32 < 32 := Nat.mod_lt _ (by decide)
  rw [togglebit, getLsbD_withWord_of_off x hj fun k hk => by rw [getLsbD_togglebit32 hg, if_neg hk],
    getLsbD_togglebit32 hg, if_pos rfl, getLsbD_word x hg, Nat.div_add_mod]

/-! ### The ripple adder and subtractor (rules R56 to R59) -/

/-- A value built up one bit at a time, from bit 0, has below bit `k` the bits it was given. -/
theorem getLsbD_of_bitwise {n : Nat} {f : Nat → BitVec n} {p : Nat → Bool} (h0 : f 0 = 0)
    (hs : ∀ i, f (i + 1) = if p i then f i ||| BitVec.twoPow n i else f i) (k : Nat)
    {j : Nat} (hj : j < n) : (f k).getLsbD j = (decide (j < k) && p j) := by
  induction k with
  | zero => simp [h0]
  | succ k ih =>
    have hstep : (f (k + 1)).getLsbD j = ((f k).getLsbD j || (decide (k = j) && p k)) := by
      rw [hs]
      cases hp : p k
      · simp
      · by_cases hkj : k = j
        · simp [hkj, hj]
        · simp [hkj]
    rw [hstep, ih]
    by_cases hkj : k = j
    · simp [hkj]
    · have hlt : j < k + 1 ↔ j < k := by omega
      simp [hkj, hlt]

theorem addc_fst {n : Nat} (a b : BitVec n) : (addc a b).1 = a + b := by
  rw [BitVec.add_def]
  rfl

theorem subb_fst {n : Nat} (a b : BitVec n) : (subb a b).1 = a - b := by
  apply BitVec.eq_of_toInt_eq
  rw [BitVec.toInt_sub, subb, BitVec.toInt_ofInt, BitVec.toInt_eq_toNat_bmod,
    BitVec.toInt_eq_toNat_bmod, ← Int.sub_bmod]

theorem toNat_subb_fst {n : Nat} (a b : BitVec n) :
    ((subb a b).1.toNat : Int) = ((a.toNat : Int) - b.toNat) % 2 ^ n := by
  rw [subb, BitVec.toNat_ofInt, Int.toNat_of_nonneg (Int.emod_nonneg _ (by positivity))]
  norm_cast

theorem toNat_addc_snd {n : Nat} (a b : BitVec n) :
    (addc a b).2.toNat = (a.toNat + b.toNat) / 2 ^ n := by
  have ha := a.isLt
  have hb := b.isLt
  by_cases h : 2 ^ n ≤ a.toNat + b.toNat
  · rw [Nat.div_eq_of_lt_le (k := 1) (by omega) (by omega)]
    simp [addc, h]
  · rw [Nat.div_eq_of_lt (by omega)]
    simp [addc, h]

/-- The carry chain is the library's carry into bit `k`. -/
theorem carryChain_eq_carry {n : Nat} (a b : BitVec n) (k : Nat) :
    carryChain a b k = BitVec.carry k a b false := by
  induction k with
  | zero => simp [carryChain, BitVec.carry, Nat.mod_one]
  | succ k ih => simp only [carryChain, ih, BitVec.carry_succ, Bool.atLeastTwo]

/-- A borrow in `a - b` is a missing carry in `a + (not b) + 1`. -/
theorem borrowChain_eq_not_carry {n : Nat} (a b : BitVec n) {k : Nat} (hk : k ≤ n) :
    borrowChain a b k = !BitVec.carry k a (~~~b) true := by
  induction k with
  | zero => simp [borrowChain, BitVec.carry, Nat.mod_one]
  | succ k ih =>
    have hnot : (~~~b).getLsbD k = !b.getLsbD k := by simp [show k < n by omega]
    rw [borrowChain, ih (by omega), BitVec.carry_succ, hnot]
    generalize BitVec.carry k a (~~~b) true = c
    cases a.getLsbD k <;> cases b.getLsbD k <;> cases c <;> rfl

/-- The ripple adder gives sum and carry at every width. -/
theorem rippleAdd_eq_addc {n : Nat} (a b : BitVec n) : rippleAdd a b = addc a b := by
  refine Prod.ext (BitVec.eq_of_getLsbD_eq fun j hj => ?_) ?_
  · rw [addc_fst, BitVec.getLsbD_add hj, ← carryChain_eq_carry]
    simpa [rippleAdd, hj] using getLsbD_of_bitwise (f := rippleSum a b) rfl (fun _ => rfl) n hj
  · simp [rippleAdd, carryChain_eq_carry, BitVec.carry_width, addc]

theorem sub_eq_add_not_add_one {n : Nat} (a b : BitVec n) :
    a - b = a + ~~~b + BitVec.setWidth n (BitVec.ofBool true) := by
  rw [BitVec.sub_eq_add_neg, BitVec.neg_eq_not_add, ← BitVec.add_assoc]
  congr 1
  apply BitVec.eq_of_toNat_eq
  simp

/-- The ripple subtractor gives difference and borrow at every width. -/
theorem rippleSub_eq_subb {n : Nat} (a b : BitVec n) : rippleSub a b = subb a b := by
  refine Prod.ext (BitVec.eq_of_getLsbD_eq fun j hj => ?_) ?_
  · have hbit := getLsbD_of_bitwise (f := rippleDiff a b) rfl (fun _ => rfl) n hj
    rw [borrowChain_eq_not_carry a b hj.le] at hbit
    rw [subb_fst, sub_eq_add_not_add_one, BitVec.getLsbD_add_add_bool hj]
    simpa [rippleSub, hj] using hbit
  · exact (borrowChain_eq_not_carry a b le_rfl).trans (BitVec.ult_eq_not_carry a b).symm

/-! ### The comparator (rule R60) -/

/-- A larger high part outweighs any low part. -/
theorem low_add_mul_lt {p low high high' : Nat} (hlow : low < p) (h : high < high') :
    low + p * high < p * high' :=
  calc low + p * high < p * (high + 1) := by rw [Nat.mul_succ]; omega
    _ ≤ p * high' := Nat.mul_le_mul_left p h

theorem cmpm_eq_compare {n : Nat} (a b : BitVec n) : cmpm a b = compare a.toNat b.toNat := rfl

theorem toNat_word {n : Nat} (x : BitVec n) (w : Nat) :
    (word x w).toNat = x.toNat / 2 ^ (32 * w) % 2 ^ 32 := by
  rw [word, BitVec.extractLsb'_toNat, Nat.shiftRight_eq_div_pow]

/-- One more word of the value, above the words below it. -/
theorem mod_words_succ {n : Nat} (x : BitVec n) (w : Nat) :
    x.toNat % 2 ^ (32 * (w + 1)) = x.toNat % 2 ^ (32 * w) + 2 ^ (32 * w) * (word x w).toNat := by
  rw [Nat.mul_succ, pow_add, Nat.mod_mul, toNat_word]

/-- The scan over the words below `k` orders the values they make up. -/
theorem cmpWords_eq_compare {n : Nat} (a b : BitVec n) (k : Nat) :
    cmpWords a b k = compare (a.toNat % 2 ^ (32 * k)) (b.toNat % 2 ^ (32 * k)) := by
  induction k with
  | zero => simp [cmpWords, Nat.mod_one]
  | succ k ih =>
    have ha : a.toNat % 2 ^ (32 * k) < 2 ^ (32 * k) := Nat.mod_lt _ (by positivity)
    have hb : b.toNat % 2 ^ (32 * k) < 2 ^ (32 * k) := Nat.mod_lt _ (by positivity)
    rw [cmpWords, mod_words_succ, mod_words_succ, ih]
    split_ifs with heq hlt
    · rw [heq]
      simp [Nat.compare_eq_ite_lt]
    · symm
      rw [compare_gt_iff_gt]
      exact (low_add_mul_lt hb hlt).trans_le (Nat.le_add_left _ _)
    · symm
      have hgt : (word a k).toNat < (word b k).toNat :=
        lt_of_le_of_ne (Nat.not_lt.1 hlt) fun h => heq (BitVec.eq_of_toNat_eq h)
      rw [compare_lt_iff_lt]
      exact (low_add_mul_lt ha hgt).trans_le (Nat.le_add_left _ _)

/-! ### The shifter and the times-ten unit (rules R61, R62) -/

theorem shl_fst {w : Nat} (x : BitVec w) (n : Nat) : (shl x n).1 = x <<< n := by
  apply BitVec.eq_of_toNat_eq
  simp [shl, Nat.shiftLeft_eq]

theorem toNat_shl_fst_of_lt {w n : Nat} {x : BitVec w} (h : x.toNat * 2 ^ n < 2 ^ w) :
    (shl x n).1.toNat = x.toNat * 2 ^ n :=
  Nat.mod_eq_of_lt h

/-- Bits are lost exactly when the shifted value does not fit. -/
theorem shl_snd_eq_zero_iff {w : Nat} (x : BitVec w) (n : Nat) :
    (shl x n).2 = 0 ↔ x.toNat * 2 ^ n < 2 ^ w := by
  simp [shl, Nat.div_eq_zero_iff]

theorem mul10_eq_none_iff {n : Nat} (x : BitVec n) : mul10 x = none ↔ 2 ^ n ≤ 10 * x.toNat := by
  simp [mul10]

theorem toNat_of_mul10_eq_some {n : Nat} {x y : BitVec n} (h : mul10 x = some y) :
    y.toNat = 10 * x.toNat := by
  rw [mul10] at h
  split_ifs at h with hx
  cases h
  rw [BitVec.toNat_ofNat, Nat.mod_eq_of_lt (by omega)]

/-- `8x + 2x` signals an overflow exactly when `10x` does not fit. -/
theorem mul10Structure_snd {n : Nat} (x : BitVec n) :
    (mul10Structure x).2 = decide (2 ^ n ≤ 10 * x.toNat) := by
  by_cases h8 : x.toNat * 2 ^ 3 < 2 ^ n
  · have h2 : x.toNat * 2 ^ 1 < 2 ^ n := by omega
    have hsum : x.toNat * 2 ^ 3 + x.toNat * 2 ^ 1 = 10 * x.toNat := by omega
    simp only [mul10Structure, (shl_snd_eq_zero_iff x 3).2 h8, (shl_snd_eq_zero_iff x 1).2 h2, addc,
      toNat_shl_fst_of_lt h8, toNat_shl_fst_of_lt h2, hsum]
    simp
  · have h10 : 2 ^ n ≤ 10 * x.toNat := by omega
    have hout : (shl x 3).2 ≠ 0 := mt (shl_snd_eq_zero_iff x 3).1 h8
    simp [mul10Structure, hout, h10]

theorem mul10Structure_fst {n : Nat} (x : BitVec n) :
    (mul10Structure x).1 = BitVec.ofNat n (10 * x.toNat) := by
  apply BitVec.eq_of_toNat_eq
  rw [mul10Structure, addc_fst, BitVec.toNat_add]
  simp only [shl, BitVec.toNat_ofNat, ← Nat.add_mod]
  congr 1
  omega

theorem mul10_eq_mul10Structure {n : Nat} (x : BitVec n) :
    mul10 x = if (mul10Structure x).2 then none else some (mul10Structure x).1 := by
  simp only [mul10Structure_snd, mul10Structure_fst, decide_eq_true_eq]
  rfl

/-! ### Division by powers of ten (rules R64, R65) -/

theorem toNat_div10Times {n : Nat} (x : BitVec n) (k : Nat) :
    (div10Times x k).toNat = x.toNat / 10 ^ k := by
  induction k with
  | zero => simp [div10Times]
  | succ k ih =>
    have hlt := (div10Times x k).isLt
    rw [div10Times, div10, BitVec.toNat_ofNat, Nat.mod_eq_of_lt (by omega), ih,
      Nat.div_div_eq_div_mul, pow_succ]

theorem discardedDigit_eq {n : Nat} (x : BitVec n) (j : Nat) :
    discardedDigit x j = x.toNat / 10 ^ j % 10 := by
  rw [discardedDigit, div10, toNat_div10Times]

theorem discardedValue_eq {n : Nat} (x : BitVec n) (k : Nat) :
    discardedValue x k = x.toNat % 10 ^ k := by
  induction k with
  | zero => simp [discardedValue, Nat.mod_one]
  | succ k ih => rw [discardedValue, ih, discardedDigit_eq, Nat.mod_pow_succ]

/-! ### Rounding half up (rule R67) -/

/-- The dropped part is at least half a unit exactly when its leading digit is 5 or more. -/
theorem half_le_remainder_iff (x k : Nat) :
    10 ^ (k + 1) ≤ 2 * (x % 10 ^ (k + 1)) ↔ 5 ≤ x / 10 ^ k % 10 := by
  have hlow : x % 10 ^ k < 10 ^ k := Nat.mod_lt _ (by positivity)
  rw [Nat.mod_pow_succ, pow_succ]
  by_cases h : 5 ≤ x / 10 ^ k % 10
  · have hup := Nat.mul_le_mul_left (10 ^ k) h
    omega
  · have hdown := low_add_mul_lt hlow (Nat.not_le.1 h)
    omega

/-- RHU is the one multiple within half a unit, the upper one at a tie. -/
theorem rhu_near (x k : Nat) :
    2 * (rhu x k * 10 ^ k) ≤ 2 * x + 10 ^ k ∧ 2 * x < 2 * (rhu x k * 10 ^ k) + 10 ^ k := by
  cases k with
  | zero => simp
  | succ k =>
    have hdiv := Nat.div_add_mod' x (10 ^ (k + 1))
    have hlow : x % 10 ^ (k + 1) < 10 ^ (k + 1) := Nat.mod_lt _ (by positivity)
    rw [rhu_succ]
    split_ifs with h
    · rw [Nat.add_mul]
      omega
    · omega

theorem rhu_succ_eq_div (x k : Nat) : rhu x (k + 1) = (x + 5 * 10 ^ k) / 10 ^ (k + 1) := by
  obtain ⟨hle, hlt⟩ := rhu_near x (k + 1)
  have hp : 10 ^ (k + 1) = 10 * 10 ^ k := by rw [pow_succ, mul_comm]
  symm
  apply Nat.div_eq_of_lt_le
  · omega
  · rw [Nat.add_mul]
    omega

/-! ### The shift-add multiplier (rule R69) -/

theorem toNat_mul_lt (a b : Mantissa) : a.toNat * b.toNat < 2 ^ 192 :=
  calc a.toNat * b.toNat < 2 ^ 96 * 2 ^ 96 := Nat.mul_lt_mul'' a.isLt b.isLt
    _ = 2 ^ 192 := by norm_num

theorem toNat_mul96 (a b : Mantissa) : (mul96 a b).toNat = a.toNat * b.toNat :=
  Nat.mod_eq_of_lt (toNat_mul_lt a b)

/-- The low `k + 1` bits are the low `k` bits and bit `k`. -/
theorem mod_two_pow_succ_getLsbD {n : Nat} (x : BitVec n) (k : Nat) :
    x.toNat % 2 ^ (k + 1) = x.toNat % 2 ^ k + 2 ^ k * (x.getLsbD k).toNat := by
  rw [Nat.mod_pow_succ, ← Nat.toNat_testBit, BitVec.testBit_toNat]

/-- After the bits below `k`, the multiplier holds the product with those bits of `b`. -/
theorem toNat_shiftAddMul (a b : Mantissa) {k : Nat} (hk : k ≤ 96) :
    (shiftAddMul a b k).toNat = a.toNat * (b.toNat % 2 ^ k) := by
  induction k with
  | zero => simp [shiftAddMul, Nat.mod_one]
  | succ k ih =>
    have hlt : a.toNat * (b.toNat % 2 ^ (k + 1)) < 2 ^ 192 :=
      (Nat.mul_le_mul_left _ (Nat.mod_le _ _)).trans_lt (toNat_mul_lt a b)
    have ih := ih (by omega)
    rw [mod_two_pow_succ_getLsbD] at hlt ⊢
    rw [shiftAddMul]
    cases hb : b.getLsbD k
    · simp [ih]
    · simp only [hb, Bool.toNat_true, mul_one, mul_add, if_true] at hlt ⊢
      have hw : (a.setWidth 192).toNat = a.toNat := by
        rw [BitVec.toNat_setWidth, Nat.mod_eq_of_lt (a.isLt.trans (by norm_num))]
      rw [addc_fst, BitVec.toNat_add, toNat_shl_fst_of_lt (by rw [hw]; omega), hw, ih,
        Nat.mod_eq_of_lt hlt]

/-! ### The restoring divider (rules R71, R72) -/

theorem toNat_divmod192_fst (d : BigMantissa) {v : Mantissa} (hv : v ≠ 0) :
    (divmod192 d v).1.toNat = d.toNat / v.toNat := by
  rw [divmod192_of_ne_zero d hv, BitVec.toNat_ofNat,
    Nat.mod_eq_of_lt ((Nat.div_le_self _ _).trans_lt d.isLt)]

theorem toNat_divmod192_snd (d : BigMantissa) {v : Mantissa} (hv : v ≠ 0) :
    (divmod192 d v).2.toNat = d.toNat % v.toNat := by
  rw [divmod192_of_ne_zero d hv, BitVec.toNat_ofNat,
    Nat.mod_eq_of_lt ((Nat.mod_lt _ (BitVec.toNat_pos_of_ne_zero hv)).trans v.isLt)]

/-- The next dividend bit, brought down below the bits above it. -/
theorem div_two_pow_bring_down {n : Nat} (d : BitVec n) (i : Nat) :
    d.toNat / 2 ^ i = 2 * (d.toNat / 2 ^ (i + 1)) + (d.getLsbD i).toNat := by
  rw [← BitVec.testBit_toNat, Nat.toNat_testBit, pow_succ, ← Nat.div_div_eq_div_mul,
    Nat.div_add_mod]

/-- The loop invariant of rule R71: `rem` and `q` are remainder and quotient of the dividend bits
brought down so far, the quotient moved up to the bits it has in the end. -/
structure DivInv (d : BigMantissa) (v : Mantissa) (i : Nat) (rem q : BigMantissa) : Prop where
  rem : rem.toNat = d.toNat / 2 ^ i % v.toNat
  quot : q.toNat = 2 ^ i * (d.toNat / 2 ^ i / v.toNat)

/-- The start: nothing brought down, remainder and quotient 0. -/
theorem DivInv.start (d : BigMantissa) (v : Mantissa) : DivInv d v 192 0 0 := by
  constructor <;> simp [Nat.div_eq_of_lt d.isLt]

/-- Shifting the remainder left and bringing down a bit loses nothing in 192 bits. -/
theorem toNat_bring_down {rem : BigMantissa} (h : rem.toNat < 2 ^ 96) (bit : Bool) :
    (addc (shl rem 1).1 (BitVec.ofNat 192 bit.toNat)).1.toNat = 2 * rem.toNat + bit.toNat := by
  have hbit := Bool.toNat_le bit
  rw [addc_fst, BitVec.toNat_add, toNat_shl_fst_of_lt (by omega), BitVec.toNat_ofNat,
    Nat.mod_eq_of_lt (a := bit.toNat) (by omega), Nat.mod_eq_of_lt (by omega)]
  omega

/-- Division by `v` of one more bit goes on from quotient and remainder of the bits before it. -/
theorem bring_down_div_mod {v : Nat} (hv : 0 < v) (e bit : Nat) :
    (2 * e + bit) / v = 2 * (e / v) + (2 * (e % v) + bit) / v ∧
      (2 * e + bit) % v = (2 * (e % v) + bit) % v := by
  have he : 2 * e + bit = 2 * (e % v) + bit + v * (2 * (e / v)) := by
    have := Nat.mod_add_div e v
    rw [Nat.mul_left_comm]
    omega
  rw [he, Nat.add_mul_div_left _ _ hv, Nat.add_mul_mod_self_left, Nat.add_comm (2 * (e / v))]
  exact ⟨rfl, rfl⟩

section
variable {d : BigMantissa} {v : Mantissa} {i : Nat} {rem rem' q : BigMantissa}

/-- A round in which the divisor does not fit keeps the remainder; the quotient bit is 0. -/
theorem DivInv.keep (h : DivInv d v (i + 1) rem q)
    (hrem' : rem'.toNat = 2 * rem.toNat + (d.getLsbD i).toNat) (hlt : rem'.toNat < v.toNat) :
    DivInv d v i rem' q := by
  obtain ⟨hrem, hq⟩ := h
  have hdm := bring_down_div_mod (v := v.toNat) (by omega) (d.toNat / 2 ^ (i + 1))
    (d.getLsbD i).toNat
  rw [← div_two_pow_bring_down, ← hrem, ← hrem', Nat.div_eq_of_lt hlt, Nat.mod_eq_of_lt hlt] at hdm
  refine ⟨hdm.2.symm, ?_⟩
  rw [hq, hdm.1, pow_succ, Nat.add_zero, Nat.mul_assoc]

/-- A round in which the divisor fits subtracts it; the quotient bit is 1. -/
theorem DivInv.subtract (h : DivInv d v (i + 1) rem q) (hi : i < 192)
    (hrem' : rem'.toNat = 2 * rem.toNat + (d.getLsbD i).toNat) (hv : v ≠ 0)
    (hle : v.toNat ≤ rem'.toNat) :
    DivInv d v i (subb rem' (v.setWidth 192)).1 (q ||| BitVec.twoPow 192 i) := by
  have hv0 := BitVec.toNat_pos_of_ne_zero hv
  have hvlt := v.isLt
  obtain ⟨hrem, hq⟩ := h
  have hdm := bring_down_div_mod hv0 (d.toNat / 2 ^ (i + 1)) (d.getLsbD i).toNat
  have hlt : rem'.toNat - v.toNat < v.toNat := by
    have := Nat.mod_lt (d.toNat / 2 ^ (i + 1)) hv0
    have := Bool.toNat_le (d.getLsbD i)
    omega
  have hquot : rem'.toNat / v.toNat = 1 := Nat.div_eq_of_lt_le (by omega) (by omega)
  have hmod : rem'.toNat % v.toNat = rem'.toNat - v.toNat := by
    rw [Nat.mod_eq_sub_mod hle, Nat.mod_eq_of_lt hlt]
  rw [← div_two_pow_bring_down, ← hrem, ← hrem', hquot, hmod] at hdm
  constructor
  · have hw : (v.setWidth 192).toNat = v.toNat := by
      rw [BitVec.toNat_setWidth, Nat.mod_eq_of_lt (by omega)]
    rw [subb_fst, BitVec.toNat_sub_of_le (by rw [BitVec.le_def, hw]; exact hle), hw]
    exact hdm.2.symm
  · have hbit : q.getLsbD i = false := by
      rw [← BitVec.testBit_toNat, hq, Nat.testBit_two_pow_mul]
      simp
    rw [toNat_or_twoPow hi hbit, hq, hdm.1, pow_succ]
    ring

end

/-- With no bits to come, the loop holds the divider's quotient and remainder. -/
theorem DivInv.finish {d : BigMantissa} {v : Mantissa} {rem q : BigMantissa} (hv : v ≠ 0)
    (h : DivInv d v 0 rem q) :
    (q, rem) = ((divmod192 d v).1, (divmod192 d v).2.setWidth 192) := by
  obtain ⟨hrem, hq⟩ := h
  rw [pow_zero, Nat.div_one] at hrem hq
  refine Prod.ext (BitVec.eq_of_toNat_eq ?_) (BitVec.eq_of_toNat_eq ?_)
  · rw [hq, toNat_divmod192_fst d hv, one_mul]
  · have hlt : d.toNat % v.toNat < 2 ^ 192 := (Nat.mod_le _ _).trans_lt d.isLt
    rw [hrem, BitVec.toNat_setWidth, toNat_divmod192_snd d hv, Nat.mod_eq_of_lt hlt]

/-- From the invariant with `i` bits to come, the loop ends with quotient and remainder. -/
theorem DivInv.restoringDiv_eq {d : BigMantissa} {v : Mantissa} {i : Nat} {rem q : BigMantissa}
    (h : DivInv d v i rem q) (hv : v ≠ 0) (hi : i ≤ 192) :
    restoringDiv d v i rem q = ((divmod192 d v).1, (divmod192 d v).2.setWidth 192) := by
  induction i generalizing rem q with
  | zero => exact h.finish hv
  | succ i ih =>
    have hlt : rem.toNat < 2 ^ 96 := by
      rw [h.rem]
      exact (Nat.mod_lt _ (BitVec.toNat_pos_of_ne_zero hv)).trans v.isLt
    have hrem' := toNat_bring_down hlt (d.getLsbD i)
    rw [restoringDiv]
    split_ifs with hle
    · exact ih (h.subtract hi hrem' hv hle) (by omega)
    · exact ih (h.keep hrem' (Nat.not_le.1 hle)) (by omega)

theorem exceeds96_eq_false_iff (p : BigMantissa) :
    exceeds96 p = false ↔ p.toNat ≤ Config.max96 := by
  have hp := p.isLt
  have hhigh : (p.extractLsb' 96 96).toNat = p.toNat / 2 ^ 96 := by
    rw [BitVec.extractLsb'_toNat, Nat.shiftRight_eq_div_pow, Nat.mod_eq_of_lt (by omega)]
  rw [exceeds96, bne_eq_false_iff_eq, ← BitVec.toNat_inj, hhigh]
  change p.toNat / 2 ^ 96 = 0 ↔ p.toNat ≤ 2 ^ 96 - 1
  omega

/-! ### The obligations -/

/-- Settles O7: each primitive changes one bit, so the number by that bit's weight. -/
theorem wordBitPrimitives : Obligations.WordBitPrimitives := by
  intro w i hi
  have hset := toNat_of_getLsbD_eq_off (x := setbit32 w i) (y := w) hi
    fun j hj => by rw [getLsbD_setbit32 hi, if_neg hj]
  have hclear := toNat_of_getLsbD_eq_off (x := clearbit32 w i) (y := w) hi
    fun j hj => by rw [getLsbD_clearbit32 hi, if_neg hj]
  have htoggle := toNat_of_getLsbD_eq_off (x := togglebit32 w i) (y := w) hi
    fun j hj => by rw [getLsbD_togglebit32 hi, if_neg hj]
  rw [getLsbD_setbit32 hi, if_pos rfl, Bool.toNat_true] at hset
  rw [getLsbD_clearbit32 hi, if_pos rfl, Bool.toNat_false] at hclear
  have hnot : (!w.getLsbD i).toNat = 1 - (w.getLsbD i).toNat := by cases w.getLsbD i <;> rfl
  rw [getLsbD_togglebit32 hi, if_pos rfl, hnot] at htoggle
  have hbit := Bool.toNat_le (w.getLsbD i)
  refine ⟨?_, ?_, ?_, ?_⟩
  · rw [getbit32, ← BitVec.testBit_toNat, Nat.toNat_testBit]
  · have := Nat.mul_le_mul_left (2 ^ i) hbit
    rw [Nat.mul_sub]
    omega
  · omega
  · zify [hbit] at htoggle
    linarith

/-- Settles O8, at every width. -/
theorem globalBitPrimitives : Obligations.GlobalBitPrimitives := by
  intro N _ x g j _ hj
  exact ⟨getbit_eq_getLsbD x g, getLsbD_setbit x hj, getLsbD_clearbit x hj, getLsbD_togglebit x hj⟩

/-- Settles O9, at every width. -/
theorem rippleAdderGivesSum : Obligations.RippleAdderGivesSum := by
  intro n _ a b
  exact ⟨rfl, toNat_addc_snd a b, rippleAdd_eq_addc a b⟩

/-- Settles O10, at every width. -/
theorem rippleSubtractorGivesDifference : Obligations.RippleSubtractorGivesDifference := by
  intro n _ a b
  exact ⟨toNat_subb_fst a b, decide_eq_true_iff,
    fun h => by rw [subb_fst, BitVec.toNat_sub_of_le h], rippleSub_eq_subb a b⟩

/-- Settles O11: `CMPM` is the order of the numbers, and so is the scan over all their words. -/
theorem wordComparisonGivesOrder : Obligations.WordComparisonGivesOrder := by
  intro N _ a b
  rw [cmpWords_eq_compare, cmpm_eq_compare, Nat.mod_eq_of_lt a.isLt, Nat.mod_eq_of_lt b.isLt,
    compare_lt_iff_lt, compare_eq_iff_eq, compare_gt_iff_gt, BitVec.toNat_inj]
  exact ⟨Iff.rfl, Iff.rfl, Iff.rfl, rfl⟩

/-- Settles O12: value and lost bits are remainder and quotient of `x × 2^n` by `2^W`. -/
theorem shifterKeepsEveryBit : Obligations.ShifterKeepsEveryBit := by
  intro W _ x n _
  refine ⟨shl_fst x n, Nat.mod_add_div' _ _, ?_⟩
  exact Nat.div_lt_of_lt_mul (Nat.mul_lt_mul_of_pos_right x.isLt (by positivity))

/-- Settles O13, at every width. -/
theorem timesTenSignalsOverflow : Obligations.TimesTenSignalsOverflow := by
  intro W _ x
  refine ⟨mul10_eq_none_iff x, ?_, fun y => toNat_of_mul10_eq_some, mul10_eq_mul10Structure x⟩
  rw [mul10_eq_none_iff]
  have : 0 < 2 ^ W := by positivity
  omega

/-- Settles O14, at every width. -/
theorem digitStepsDivideByPowersOfTen : Obligations.DigitStepsDivideByPowersOfTen := by
  intro n _ x k
  refine ⟨toNat_div10Times x k, discardedValue_eq x k, ?_⟩
  rw [discardedDigit_eq]
  omega

/-- Settles O15: the closed form follows from nearness, the digit form from the definition. -/
theorem roundHalfUpIsNearest : Obligations.RoundHalfUpIsNearest := by
  intro x k
  refine ⟨rhu_zero_digits x, fun hk => ?_, rhu_near x k⟩
  obtain ⟨k, rfl⟩ := Nat.exists_eq_succ_of_ne_zero hk.ne'
  refine ⟨rhu_succ_eq_div x k, ?_⟩
  simp only [rhu_succ, half_le_remainder_iff, Nat.succ_eq_add_one, Nat.add_sub_cancel]
  split_ifs <;> omega

/-- Settles O16: all 96 bits of `b` are `b`. -/
theorem shiftAddMultiplierGivesProduct : Obligations.ShiftAddMultiplierGivesProduct := by
  intro a b
  refine ⟨toNat_mul96 a b, BitVec.eq_of_toNat_eq ?_⟩
  rw [toNat_shiftAddMul a b le_rfl, toNat_mul96, Nat.mod_eq_of_lt b.isLt]

/-- Settles O17: the loop starts from its invariant and ends with quotient and remainder. -/
theorem restoringDividerDivides : Obligations.RestoringDividerDivides := by
  intro d v hv
  refine ⟨?_, ?_, (DivInv.start d v).restoringDiv_eq hv le_rfl, exceeds96_eq_false_iff _⟩
  · rw [toNat_divmod192_fst d hv, toNat_divmod192_snd d hv, Nat.div_add_mod']
  · rw [toNat_divmod192_snd d hv]
    exact Nat.mod_lt _ (BitVec.toNat_pos_of_ne_zero hv)

end Sys2Proof.Machine

end

section
/-! SUPPORT. Proofs for the family `41_scale_aligner.md`: an alignment loop in closed form, as the
number of steps that `alignSteps` fixes, and from it the values, the stalls and the command ALIGN
(rules R76 to R81). -/

namespace Sys2Proof.Machine

/-! ### The number of alignment steps (rule R76) -/

theorem toNat_le_max96 (m : Mantissa) : m.toNat ≤ Config.max96 := Nat.le_pred_of_lt m.isLt

/-- A product that fits is kept whole by 96 bits. -/
theorem toNat_ofNat_of_le_max96 {n : Nat} (h : n ≤ Config.max96) :
    (BitVec.ofNat 96 n).toNat = n := by
  rw [BitVec.toNat_ofNat, Nat.mod_eq_of_lt (Nat.lt_of_le_pred (by decide) h)]

/-- The next step would overflow: the loop stops where it stands. -/
theorem alignSteps_stall {m gap : Nat} (hm : m ≤ Config.max96) (h : Config.max96 < 10 * m) :
    alignSteps m gap 0 :=
  ⟨gap.zero_le, by rwa [pow_zero, mul_one], .inr (by rwa [zero_add, pow_one, mul_comm])⟩

/-- One step that fits, and then the steps of ten times the mantissa. -/
theorem alignSteps.succ {m gap j : Nat} (h : alignSteps (10 * m) gap j) :
    alignSteps m (gap + 1) (j + 1) := by
  obtain ⟨hj, hfit, hstop⟩ := h
  have hpow : ∀ k, m * 10 ^ (k + 1) = 10 * m * 10 ^ k := fun k => by rw [pow_succ]; ring
  exact ⟨Nat.succ_le_succ hj, by rwa [hpow],
    hstop.imp (congrArg Nat.succ) fun hover => by rwa [hpow]⟩

/-- All steps are taken exactly when the mantissa at the target scale fits 96 bits. -/
theorem alignSteps.eq_gap_iff {m gap j : Nat} (h : alignSteps m gap j) :
    j = gap ↔ m * 10 ^ gap ≤ Config.max96 := by
  obtain ⟨hj, hfit, hstop⟩ := h
  refine ⟨fun heq => heq ▸ hfit, fun hgap => ?_⟩
  by_contra hne
  have hover : Config.max96 < m * 10 ^ (j + 1) := hstop.resolve_left hne
  have hmono : m * 10 ^ (j + 1) ≤ m * 10 ^ gap :=
    Nat.mul_le_mul_left m (Nat.pow_le_pow_right (by decide) (by omega))
  exact absurd (hover.trans_le hmono) hgap.not_gt

/-- The loop of rule R76 in closed form. -/
theorem exists_raiseScale_eq (m : Mantissa) (sc gap : Nat) :
    ∃ j, alignSteps m.toNat gap j ∧
      raiseScale m sc gap = (BitVec.ofNat 96 (m.toNat * 10 ^ j), sc + j) := by
  induction gap generalizing m sc with
  | zero =>
    have hfit : m.toNat * 10 ^ 0 ≤ Config.max96 := by simpa using toNat_le_max96 m
    exact ⟨0, ⟨le_rfl, hfit, .inl rfl⟩, by simp [raiseScale]⟩
  | succ gap ih =>
    cases ht : mul10 m with
    | none =>
      have hover : Config.max96 < 10 * m.toNat := (mul10_eq_none_iff m).1 ht
      exact ⟨0, alignSteps_stall (toNat_le_max96 m) hover, by simp [raiseScale, ht]⟩
    | some t =>
      obtain ⟨j, hsteps, heq⟩ := ih t (sc + 1)
      rw [toNat_of_mul10_eq_some ht] at hsteps heq
      have hmul : m.toNat * 10 ^ (j + 1) = 10 * m.toNat * 10 ^ j := by rw [pow_succ]; ring
      have hsc : sc + 1 + j = sc + (j + 1) := by omega
      exact ⟨j + 1, hsteps.succ, by simp only [raiseScale, ht, heq, hmul, hsc]⟩

/-! ### One operand raised (rules R77, R78) -/

/-- `x` after `j` steps of alignment. -/
def raisedBy (x : Triple) (j : Nat) : Triple :=
  ⟨x.sg, BitVec.ofNat 96 (x.m.toNat * 10 ^ j), x.sc + j⟩

@[simp] theorem raisedBy_sg (x : Triple) (j : Nat) : (raisedBy x j).sg = x.sg := rfl

@[simp] theorem raisedBy_sc (x : Triple) (j : Nat) : (raisedBy x j).sc = x.sc + j := rfl

theorem toNat_raisedBy_m {x : Triple} {j : Nat} (h : x.m.toNat * 10 ^ j ≤ Config.max96) :
    (raisedBy x j).m.toNat = x.m.toNat * 10 ^ j :=
  toNat_ofNat_of_le_max96 h

/-- What the aligner does to one operand: the steps rule R76 allows, and nothing else. -/
theorem exists_raiseTo_eq (x : Triple) (target : Nat) :
    ∃ j, alignSteps x.m.toNat (target - x.sc) j ∧ raiseTo x target = raisedBy x j := by
  obtain ⟨j, hsteps, heq⟩ := exists_raiseScale_eq x.m x.sc (target - x.sc)
  exact ⟨j, hsteps, by simp only [raiseTo, heq, raisedBy]⟩

/-- Each step multiplies the mantissa by ten and adds one to the scale. -/
theorem val_raisedBy {x : Triple} {j : Nat} (h : x.m.toNat * 10 ^ j ≤ Config.max96) :
    (raisedBy x j).val = x.val := by
  have hten : (10 : ℚ) ^ j ≠ 0 := by positivity
  rw [Triple.val, Triple.val, raisedBy_sg, raisedBy_sc, toNat_raisedBy_m h]
  push_cast
  rw [pow_add, ← mul_assoc, mul_div_mul_right _ _ hten]

theorem raiseTo_val (x : Triple) (target : Nat) : (raiseTo x target).val = x.val := by
  obtain ⟨j, ⟨_, hfit, _⟩, heq⟩ := exists_raiseTo_eq x target
  rw [heq, val_raisedBy hfit]

/-- An operand reaches a higher scale exactly when its mantissa there fits 96 bits. -/
theorem raiseTo_sc_eq_iff {x : Triple} {target : Nat} (h : x.sc ≤ target) :
    (raiseTo x target).sc = target ↔ x.m.toNat * 10 ^ (target - x.sc) ≤ Config.max96 := by
  obtain ⟨j, hsteps, heq⟩ := exists_raiseTo_eq x target
  rw [heq, ← hsteps.eq_gap_iff, raisedBy_sc]
  omega

/-- An operand that stays below its target cannot be raised further (rule R78). -/
theorem max96_lt_of_raiseTo_sc_lt {x : Triple} {target : Nat} (h : (raiseTo x target).sc < target) :
    Config.max96 < 10 * (raiseTo x target).m.toNat := by
  obtain ⟨j, ⟨_, hfit, hstop⟩, heq⟩ := exists_raiseTo_eq x target
  rw [heq, raisedBy_sc] at h
  have hover : Config.max96 < x.m.toNat * 10 ^ (j + 1) := hstop.resolve_left (by omega)
  rwa [heq, toNat_raisedBy_m hfit, mul_comm, mul_assoc, ← pow_succ]

/-! ### Both operands (rules R77, R78) -/

theorem align96_comm (x y : Triple) : align96 y x = (align96 x y).swap := rfl

theorem noStall_comm (x y : Triple) : noStall y x = noStall x y := Bool.and_comm _ _

/-- Only the operand with the lower scale moves. -/
theorem align96_of_le {x y : Triple} (h : x.sc ≤ y.sc) : align96 x y = (raiseTo x y.sc, y) := by
  rw [align96, raiseTo_of_le y h]

/-- Only the operand with the lower scale can stall. -/
theorem noStall_iff_of_le {x y : Triple} (h : x.sc ≤ y.sc) :
    noStall x y = true ↔ x.m.toNat * 10 ^ (y.sc - x.sc) ≤ Config.max96 := by
  simp [noStall, Nat.sub_eq_zero_of_le h, toNat_le_max96 y.m]

/-- The scales come out equal exactly when alignment does not stall. -/
theorem align96_sc_eq_iff (x y : Triple) :
    (align96 x y).1.sc = (align96 x y).2.sc ↔ noStall x y = true := by
  rcases le_total x.sc y.sc with h | h
  · rw [align96_of_le h, noStall_iff_of_le h]
    exact raiseTo_sc_eq_iff h
  · rw [align96_comm y x, align96_of_le h, noStall_comm y x, noStall_iff_of_le h]
    exact eq_comm.trans (raiseTo_sc_eq_iff h)

/-- ALIGN's flag says whether alignment stalled (rule R81). -/
theorem flagAligned_align96 (x y : Triple) : flagAligned (align96 x y) = noStall x y := by
  rw [Bool.eq_iff_iff, ← align96_sc_eq_iff, flagAligned, beq_iff_eq]

/-- Equal scales after alignment are the larger of the two scales. -/
theorem align96_sc_eq_max {x y : Triple} (h : (align96 x y).1.sc = (align96 x y).2.sc) :
    (align96 x y).1.sc = max x.sc y.sc := by
  have hx := raiseTo_scale x y.sc
  have hy := raiseTo_scale y x.sc
  simp only [align96] at h ⊢
  omega

/-- A zero mantissa never stalls (rule R77). -/
theorem raiseTo_sc_of_m_eq_zero {x : Triple} {target : Nat} (hm : x.m = 0) (h : x.sc ≤ target) :
    (raiseTo x target).sc = target :=
  (raiseTo_sc_eq_iff h).2 (by simp [hm])

/-- After a stall the first operand had the lower scale. -/
theorem sc_lt_of_align96_sc_lt {x y : Triple} (h : (align96 x y).1.sc < (align96 x y).2.sc) :
    x.sc < y.sc := by
  have hx := (raiseTo_scale x y.sc).1
  have hy := (raiseTo_scale y x.sc).2
  simp only [align96] at h
  omega

/-- A mantissa that cannot be raised outweighs any mantissa at a higher scale (rule R78). -/
theorem abs_val_lt_of_sc_lt {x y : Triple} (hx : Config.max96 < 10 * x.m.toNat)
    (h : x.sc < y.sc) : |y.val| < |x.val| := by
  have hlt : y.m.toNat * 10 ^ x.sc < x.m.toNat * 10 ^ y.sc :=
    calc y.m.toNat * 10 ^ x.sc < 10 * x.m.toNat * 10 ^ x.sc :=
          Nat.mul_lt_mul_of_pos_right ((toNat_le_max96 y.m).trans_lt hx) (by positivity)
      _ = x.m.toNat * 10 ^ (x.sc + 1) := by rw [pow_succ]; ring
      _ ≤ x.m.toNat * 10 ^ y.sc :=
          Nat.mul_le_mul_left _ (Nat.pow_le_pow_right (by decide) h)
  rw [abs_val, abs_val, div_lt_div_iff₀ (by positivity) (by positivity)]
  exact_mod_cast hlt

/-! ### The operand check of a CMD2 command (rule R47) -/

theorem withOperands_of_invalid {a b : Port} (h : valid a = false ∨ valid b = false) (s : State)
    (k : Triple → Triple → State) : withOperands a b s k = .next (s.raise .invalidInput) := by
  rw [withOperands, if_neg (by rcases h with h | h <;> simp [h])]

theorem withOperands_of_valid {a b : Port} (ha : valid a = true) (hb : valid b = true) (s : State)
    (k : Triple → Triple → State) : withOperands a b s k = .next (k (dec a) (dec b)) := by
  rw [withOperands, if_pos (by rw [ha, hb]; rfl)]

/-- ALIGN is its arm of `exec` (rule R81). -/
theorem exec_align (a b : Port) (s : State) :
    exec (.align a b) s = withOperands a b s fun x y =>
      s.doneBoth (enc (align96 x y).1) (noStall x y) := by
  simp only [exec, execAlign, flagAligned_align96]

/-! ### The obligations -/

/-- Settles O18: each operand is raised on its own, and the scales agree unless one stalls. -/
theorem alignmentKeepsValues : Obligations.AlignmentKeepsValues := by
  rintro x y x' y' h
  obtain ⟨rfl, rfl⟩ := Prod.mk.inj h
  exact ⟨raiseTo_val x y.sc, raiseTo_val y x.sc, rfl, rfl, raiseTo_of_le x, raiseTo_of_le y,
    (align96_scale_le x y).1, (align96_scale_le x y).2, align96_sc_eq_max, align96_sc_eq_iff x y,
    raiseTo_sc_of_m_eq_zero, rfl⟩

/-- Settles O19: the stalled operand is raised as far as it goes and keeps the lower scale. -/
theorem stalledOperandIsLarger : Obligations.StalledOperandIsLarger := by
  rintro x y x' y' h hstall
  obtain ⟨rfl, rfl⟩ := Prod.mk.inj h
  have hsc : x.sc < y.sc := sc_lt_of_align96_sc_lt hstall
  rw [raiseTo_of_le y hsc.le] at hstall
  have hfull := max96_lt_of_raiseTo_sc_lt hstall
  refine ⟨hfull, ?_⟩
  rw [← raiseTo_val x y.sc]
  exact abs_val_lt_of_sc_lt hfull hstall

/-- Settles O20: the closed form of the first operand raised, and the flag of a stall. -/
theorem alignReturnsFirstOperandAligned : Obligations.AlignReturnsFirstOperandAligned := by
  intro a b s
  refine ⟨fun h => by rw [exec_align, withOperands_of_invalid h]; rfl, fun ha hb => ?_⟩
  obtain ⟨j, hsteps, heq⟩ := exists_raiseTo_eq (dec a) (dec b).sc
  refine ⟨j, hsteps, ?_⟩
  rw [exec_align, withOperands_of_valid ha hb, align96, heq]
  rfl

end Sys2Proof.Machine

end

section
/-! SUPPORT. Proofs for the family `42_arithmetic.md`: COMMON in closed form (rule R83), ADD and SUB
case by case and the error of their roundings (rules R84 to R87), and the searches of MUL and DIV
for the largest scale that fits (rules R88 to R92). -/

namespace Sys2Proof.Machine

/-! ### The commands and their operand check (rule R47) -/

theorem exec_add (a b : Port) (s : State) :
    exec (.add a b) s = withOperands a b s fun x y => s.endSum (addCore x y) := rfl

theorem exec_sub (a b : Port) (s : State) :
    exec (.sub a b) s =
      withOperands a b s fun x y => s.endSum (addCore x { y with sg := !y.sg }) := rfl

theorem exec_mul (a b : Port) (s : State) :
    exec (.mul a b) s = withOperands a b s fun x y =>
      s.endScaled (x.sg ^^ y.sg) (reduceProduct (x.m.toNat * y.m.toNat) (x.sc + y.sc)
        (min (x.sc + y.sc) Config.smax)) := by
  simp only [← toNat_mul96]
  rfl

theorem exec_div (a b : Port) (s : State) :
    exec (.div a b) s = withOperands a b s fun x y =>
      if y.m = 0 then s.raise .divByZero
      else if x.m = 0 then s.done (enc ⟨x.sg ^^ y.sg, 0, max x.sc y.sc⟩)
      else s.endScaled (x.sg ^^ y.sg) (divideFrom x y Config.smax) := rfl

theorem exec_neg (a : Port) (s : State) :
    exec (.neg a) s = withOperand a s fun x => s.done (enc { x with sg := !x.sg }) := rfl

theorem withOperand_of_valid {a : Port} (ha : valid a = true) (s : State) (k : Triple → State) :
    withOperand a s k = .next (k (dec a)) := by
  rw [withOperand, if_pos ha]

/-- A command whose two operands may be exchanged once decoded may exchange them on the ports. -/
theorem withOperands_swap (a b : Port) (s : State) {k k' : Triple → Triple → State}
    (h : k (dec a) (dec b) = k' (dec b) (dec a)) :
    withOperands a b s k = withOperands b a s k' := by
  simp only [withOperands, Bool.and_comm (valid a), h]

/-! ### The sign bit (rules R86, R107) -/

/-- A field below the sign bit is left as it was. -/
theorem extractLsb'_togglebit_sign (d : Port) {start len : Nat} (h : start + len ≤ 127) :
    (togglebit d 127).extractLsb' start len = d.extractLsb' start len := by
  refine BitVec.eq_of_getLsbD_eq fun i hi => ?_
  rw [BitVec.getLsbD_extractLsb', BitVec.getLsbD_extractLsb', getLsbD_togglebit d (by omega),
    if_neg (by omega)]

theorem reservedLow_togglebit_sign (d : Port) : reservedLow (togglebit d 127) = reservedLow d :=
  extractLsb'_togglebit_sign d (by decide)

theorem reservedHigh_togglebit_sign (d : Port) :
    reservedHigh (togglebit d 127) = reservedHigh d :=
  extractLsb'_togglebit_sign d (by decide)

theorem scaleField_togglebit_sign (d : Port) : scaleField (togglebit d 127) = scaleField d :=
  extractLsb'_togglebit_sign d (by decide)

theorem mantissaField_togglebit_sign (d : Port) :
    mantissaField (togglebit d 127) = mantissaField d :=
  extractLsb'_togglebit_sign d (by decide)

theorem signField_togglebit_sign (d : Port) : signField (togglebit d 127) = !signField d := by
  rw [signField, getLsbD_togglebit d (by decide), if_pos rfl, signField]

theorem valid_togglebit_sign (d : Port) : valid (togglebit d 127) = valid d := by
  rw [valid, reservedLow_togglebit_sign, reservedHigh_togglebit_sign, scaleField_togglebit_sign,
    valid]

theorem dec_togglebit_sign (d : Port) :
    dec (togglebit d 127) = { dec d with sg := !(dec d).sg } := by
  rw [dec, signField_togglebit_sign, mantissaField_togglebit_sign, scaleField_togglebit_sign, dec]

/-- NEG toggles the sign bit (rule R107). -/
theorem exec_neg_of_valid {a : Port} (ha : valid a = true) (s : State) :
    exec (.neg a) s = .next (s.done (togglebit a 127)) := by
  rw [exec_neg, withOperand_of_valid ha, ← dec_togglebit_sign,
    enc_dec ((valid_togglebit_sign a).trans ha)]

/-- Rule R86 for every pair of operands. -/
theorem exec_sub_eq_exec_add (a b : Port) (s : State) :
    exec (.sub a b) s = exec (.add a (togglebit b 127)) s := by
  rw [exec_sub, exec_add, withOperands, withOperands, valid_togglebit_sign, dec_togglebit_sign]

/-! ### The common scale (rule R83) -/

theorem common_comm (x y : Triple) :
    common y x = { mx := (common x y).my, my := (common x y).mx, s := (common x y).s } := by
  simp only [common, align96_comm x y, Prod.fst_swap, Prod.snd_swap]
  rcases lt_trichotomy (align96 x y).1.sc (align96 x y).2.sc with h | h | h
  · simp [h, h.not_gt]
  · simp [h]
  · simp [h, h.not_gt]

/-- COMMON in closed form: the operand with the lower scale takes its alignment steps, the other
drops the digits that are then left of the gap. -/
theorem exists_common_eq {x y : Triple} (h : x.sc ≤ y.sc) :
    ∃ j, alignSteps x.m.toNat (y.sc - x.sc) j ∧
      common x y =
        { mx := (raisedBy x j).m, my := rhu96 y.m (y.sc - (x.sc + j)), s := x.sc + j } := by
  obtain ⟨j, hsteps, heq⟩ := exists_raiseTo_eq x y.sc
  have ⟨hj, _, _⟩ := hsteps
  refine ⟨j, hsteps, ?_⟩
  rw [common, align96_of_le h, heq]
  have hge : ¬ y.sc < x.sc + j := by omega
  by_cases hlt : x.sc + j < y.sc
  · simp [hge, hlt]
  · have hgap : y.sc - (x.sc + j) = 0 := by omega
    simp [hge, hlt, hgap, rhu96]

/-- Operands at one scale are at their common scale already. -/
theorem common_of_sc_eq {x y : Triple} (h : x.sc = y.sc) : common x y = ⟨x.m, y.m, x.sc⟩ := by
  simp [common, align96_of_le h.le, raiseTo_of_le x h.ge, h]

/-! ### ADDCORE case by case (rule R84) -/

/-- The adder's carry says that the sum does not fit a mantissa. -/
theorem addc_snd_eq_true_iff (m n : Mantissa) :
    (addc m n).2 = true ↔ Config.max96 < m.toNat + n.toNat := decide_eq_true_iff

theorem basicAdd_of_fits (sg : Bool) {c : CommonScale}
    (h : c.mx.toNat + c.my.toNat ≤ Config.max96) :
    basicAdd sg c = some ⟨sg, BitVec.ofNat 96 (c.mx.toNat + c.my.toNat), c.s⟩ := by
  rw [basicAdd, if_neg ((addc_snd_eq_true_iff _ _).not.2 h.not_gt)]
  rfl

theorem basicAdd_of_carry (sg : Bool) {c : CommonScale}
    (h : Config.max96 < c.mx.toNat + c.my.toNat) (hs : 0 < c.s) :
    basicAdd sg c =
      some ⟨sg, BitVec.ofNat 96 (rhu c.mx.toNat 1 + rhu c.my.toNat 1), c.s - 1⟩ := by
  rw [basicAdd, if_pos ((addc_snd_eq_true_iff _ _).2 h), if_neg hs.ne', addc, rhu96_toNat,
    rhu96_toNat]

theorem basicAdd_of_overflow (sg : Bool) {c : CommonScale}
    (h : Config.max96 < c.mx.toNat + c.my.toNat) (hs : c.s = 0) : basicAdd sg c = none := by
  rw [basicAdd, if_pos ((addc_snd_eq_true_iff _ _).2 h), if_pos hs]

/-- Two mantissas reduced by a digit each have a sum of 96 bits. -/
theorem rhu_one_add_rhu_one_le (m n : Mantissa) :
    rhu m.toNat 1 + rhu n.toNat 1 ≤ Config.max96 := by
  have hm := (rhu_near m.toNat 1).1
  have hn := (rhu_near n.toNat 1).1
  have := m.isLt
  have := n.isLt
  change _ ≤ 2 ^ 96 - 1
  omega

theorem subb_fst_of_le {m n : Mantissa} (h : n.toNat ≤ m.toNat) :
    (subb m n).1 = BitVec.ofNat 96 (m.toNat - n.toNat) := by
  have hm := toNat_le_max96 m
  apply BitVec.eq_of_toNat_eq
  rw [subb_fst, BitVec.toNat_sub_of_le h, toNat_ofNat_of_le_max96 (by omega)]

theorem basicSub_of_eq (sx sy : Bool) {c : CommonScale} (h : c.mx.toNat = c.my.toNat) :
    basicSub sx sy c = ⟨false, 0, c.s⟩ := by
  simp [basicSub, cmpm, h]

theorem basicSub_of_gt (sx sy : Bool) {c : CommonScale} (h : c.my.toNat < c.mx.toNat) :
    basicSub sx sy c = ⟨sx, BitVec.ofNat 96 (c.mx.toNat - c.my.toNat), c.s⟩ := by
  simp [basicSub, cmpm, h.not_gt, h.ne', subb_fst_of_le h.le]

theorem basicSub_of_lt (sx sy : Bool) {c : CommonScale} (h : c.mx.toNat < c.my.toNat) :
    basicSub sx sy c = ⟨sy, BitVec.ofNat 96 (c.my.toNat - c.mx.toNat), c.s⟩ := by
  simp [basicSub, cmpm, h, subb_fst_of_le h.le]

theorem addCore_of_sg_eq {x y : Triple} (h : x.sg = y.sg) :
    addCore x y = basicAdd x.sg (common x y) := if_pos h

theorem addCore_of_sg_ne {x y : Triple} (h : x.sg ≠ y.sg) :
    addCore x y = some (basicSub x.sg y.sg (common x y)) := if_neg h

theorem addc_comm {n : Nat} (a b : BitVec n) : addc a b = addc b a := by
  rw [addc, addc, Nat.add_comm]

theorem basicAdd_comm (sg : Bool) (mx my : Mantissa) (s : Nat) :
    basicAdd sg ⟨mx, my, s⟩ = basicAdd sg ⟨my, mx, s⟩ := by
  simp only [basicAdd, addc_comm mx, addc_comm (rhu96 mx 1)]

theorem basicSub_comm (sx sy : Bool) (mx my : Mantissa) (s : Nat) :
    basicSub sx sy ⟨mx, my, s⟩ = basicSub sy sx ⟨my, mx, s⟩ := by
  rcases lt_trichotomy mx.toNat my.toNat with h | h | h
  · rw [basicSub_of_lt sx sy h, basicSub_of_gt sy sx h]
  · rw [basicSub_of_eq sx sy h, basicSub_of_eq sy sx h.symm]
  · rw [basicSub_of_gt sx sy h, basicSub_of_lt sy sx h]

theorem addCore_comm (x y : Triple) : addCore x y = addCore y x := by
  by_cases h : x.sg = y.sg
  · rw [addCore_of_sg_eq h, addCore_of_sg_eq h.symm, common_comm x y, h]
    exact basicAdd_comm _ _ _ _
  · rw [addCore_of_sg_ne h, addCore_of_sg_ne (Ne.symm h), common_comm x y]
    exact congrArg some (basicSub_comm _ _ _ _ _)

/-- Opposite signs and equal mantissas at one scale give plus zero at that scale. -/
theorem addCore_neg_self (x : Triple) :
    addCore x { x with sg := !x.sg } = some ⟨false, 0, x.sc⟩ := by
  have hsg : x.sg ≠ !x.sg := by simp
  have hcommon : common x { x with sg := !x.sg } = ⟨x.m, x.m, x.sc⟩ := common_of_sc_eq rfl
  rw [addCore_of_sg_ne hsg, hcommon, basicSub_of_eq _ _ rfl]

/-! ### The searches of MUL and DIV (rules R88, R91) -/

/-- `t` is the largest scale from `lo` to `hi` at which the rounded mantissa `f t` fits 96 bits. -/
structure LargestFitting (f : Nat → Nat) (lo hi t : Nat) : Prop where
  ge : lo ≤ t
  le : t ≤ hi
  fit : f t ≤ Config.max96
  above : ∀ t', t < t' → t' ≤ hi → Config.max96 < f t'

theorem LargestFitting.self {f : Nat → Nat} {lo hi : Nat} (h : lo ≤ hi)
    (hfit : f hi ≤ Config.max96) : LargestFitting f lo hi hi :=
  ⟨h, le_rfl, hfit, fun _ hlt hle => absurd hle hlt.not_ge⟩

/-- One more scale at the top, at which nothing fits. -/
theorem LargestFitting.succ {f : Nat → Nat} {lo hi t : Nat} (h : LargestFitting f lo hi t)
    (hover : Config.max96 < f (hi + 1)) : LargestFitting f lo (hi + 1) t := by
  refine ⟨h.ge, h.le.trans (Nat.le_succ hi), h.fit, fun t' hlt hle => ?_⟩
  rcases Nat.le_succ_iff.1 hle with hle | rfl
  · exact h.above t' hlt hle
  · exact hover

theorem fits_iff_of_scale_le {t : Nat} (ht : t ≤ Config.smax) (x : Nat) :
    fits x t = true ↔ x ≤ Config.max96 := by
  rw [fits_iff, and_iff_left ht]

/-- Dropping one more digit never gives a larger mantissa. -/
theorem rhu_succ_le (x k : Nat) : rhu x (k + 1) ≤ rhu x k := by
  have hcoarse := (rhu_near x (k + 1)).1
  have hfine := (rhu_near x k).2
  have hpow : 10 ^ (k + 1) = 10 * 10 ^ k := by rw [pow_succ, mul_comm]
  by_contra! h
  have hmul : (rhu x k + 1) * 10 ^ k ≤ rhu x (k + 1) * 10 ^ k := Nat.mul_le_mul_right _ h
  rw [hpow, Nat.mul_left_comm (rhu x (k + 1))] at hcoarse
  rw [Nat.add_mul] at hmul
  omega

theorem rhu_antitone (x : Nat) : Antitone (rhu x) := antitone_nat_of_succ_le (rhu_succ_le x)

/-- MUL's search finds the largest scale that fits, when scale 0 does. -/
theorem exists_reduceProduct_eq {p s : Nat} (hfit : rhu p s ≤ Config.max96) {t : Nat}
    (ht : t ≤ Config.smax) :
    ∃ u, LargestFitting (fun t => rhu p (s - t)) 0 t u ∧
      reduceProduct p s t = some (rhu p (s - u), u) := by
  induction t with
  | zero =>
    refine ⟨0, .self le_rfl hfit, ?_⟩
    rw [reduceProduct, if_pos ((fits_iff_of_scale_le ht _).2 hfit), Nat.sub_zero]
  | succ t ih =>
    rw [reduceProduct]
    simp only [fits_iff_of_scale_le ht]
    split_ifs with hle
    · exact ⟨t + 1, .self (Nat.zero_le _) hle, rfl⟩
    · obtain ⟨u, hu, heq⟩ := ih (by omega)
      exact ⟨u, hu.succ (Nat.not_le.1 hle), heq⟩

/-- MUL's search finds nothing when scale 0 does not fit. -/
theorem reduceProduct_eq_none {p s : Nat} (hover : Config.max96 < rhu p s) (t : Nat) :
    reduceProduct p s t = none := by
  refine Option.eq_none_iff_forall_ne_some.2 fun ⟨m, u⟩ h => ?_
  obtain ⟨-, rfl, hfit⟩ := reduceProduct_some h
  have hle : rhu p s ≤ rhu p (s - u) := rhu_antitone p (Nat.sub_le s u)
  exact absurd (hle.trans ((fits_iff _ _).1 hfit).1) hover.not_ge

/-- The rounded quotient from quotient and remainder (rule R73). -/
theorem rnddiv_eq_div (d : Nat) {v : Nat} (hv : 0 < v) :
    rnddiv (d / v) (d % v) v = (2 * d + v) / (2 * v) := by
  have hd : v * (d / v) + d % v = d := Nat.div_add_mod d v
  have hr : d % v < v := Nat.mod_lt d hv
  have hq : d / v * (2 * v) = 2 * (v * (d / v)) := by ring
  symm
  rw [rnddiv]
  split_ifs with hup
  · exact Nat.div_eq_of_lt_le (by rw [Nat.add_mul, hq]; omega)
      (by rw [Nat.add_mul, Nat.add_mul, hq]; omega)
  · exact Nat.div_eq_of_lt_le (by rw [hq]; omega) (by rw [Nat.add_mul, hq]; omega)

/-- A dividend of more than 192 bits has a quotient of more than 96. -/
theorem max96_lt_div_of_le {d : Nat} {v : Mantissa} (hd : 2 ^ 192 ≤ d) (hv : v ≠ 0) :
    Config.max96 < (2 * d + v.toNat) / (2 * v.toNat) := by
  have hv0 := BitVec.toNat_pos_of_ne_zero hv
  have hvlt := v.isLt
  change 2 ^ 96 ≤ _
  rw [Nat.le_div_iff_mul_le (by omega)]
  omega

/-- A round of DIV's search tests whether the rounded quotient at its scale fits. -/
theorem quotientAt_eq_ite {x y : Triple} (hy : y.m ≠ 0) {t : Nat} (ht : t ≤ Config.smax) :
    quotientAt x y t =
      if roundedQuotient x y t ≤ Config.max96 then some (roundedQuotient x y t) else none := by
  rw [quotientAt]
  by_cases hd : 2 ^ 192 ≤ x.m.toNat * 10 ^ (t + y.sc - x.sc)
  · have hover : Config.max96 < roundedQuotient x y t := max96_lt_div_of_le hd hy
    rw [if_pos hd, if_neg hover.not_ge]
  · have hlt : x.m.toNat * 10 ^ (t + y.sc - x.sc) < 2 ^ 192 := Nat.not_le.1 hd
    simp only [if_neg hd, toNat_divmod192_fst _ hy, toNat_divmod192_snd _ hy, BitVec.toNat_ofNat,
      Nat.mod_eq_of_lt hlt, rnddiv_eq_div _ (BitVec.toNat_pos_of_ne_zero hy),
      fits_iff_of_scale_le ht]
    rfl

theorem roundedQuotient_mono (x y : Triple) : Monotone (roundedQuotient x y) := by
  intro t u h
  have hpow : 10 ^ (t + y.sc - x.sc) ≤ 10 ^ (u + y.sc - x.sc) :=
    Nat.pow_le_pow_right (by decide) (by omega)
  refine Nat.div_le_div_right (Nat.add_le_add_right (Nat.mul_le_mul_left 2 ?_) _)
  exact Nat.mul_le_mul_left _ hpow

/-- What DIV's search finds is a rounded quotient that fits. -/
theorem divideFrom_some_eq {x y : Triple} (hy : y.m ≠ 0) {t m u : Nat} (ht : t ≤ Config.smax)
    (h : divideFrom x y t = some (m, u)) :
    u ≤ Config.smax ∧ x.sc - y.sc ≤ u ∧ m = roundedQuotient x y u ∧ m ≤ Config.max96 := by
  obtain ⟨hut, hge, hq⟩ := divideFrom_some h
  have hu : u ≤ Config.smax := hut.trans ht
  rw [quotientAt_eq_ite hy hu] at hq
  split_ifs at hq with hfit
  obtain rfl := Option.some.inj hq
  exact ⟨hu, hge, rfl, hfit⟩

/-- DIV's search finds the largest scale that fits, when the lowest it tries does. -/
theorem exists_divideFrom_eq {x y : Triple} (hy : y.m ≠ 0)
    (hfit : roundedQuotient x y (x.sc - y.sc) ≤ Config.max96) {t : Nat} (ht : t ≤ Config.smax)
    (hlo : x.sc - y.sc ≤ t) :
    ∃ u, LargestFitting (roundedQuotient x y) (x.sc - y.sc) t u ∧
      divideFrom x y t = some (roundedQuotient x y u, u) := by
  induction t with
  | zero =>
    have hzero : x.sc - y.sc = 0 := Nat.le_zero.1 hlo
    rw [hzero] at hfit ⊢
    refine ⟨0, .self le_rfl hfit, ?_⟩
    rw [divideFrom, if_neg (by omega), quotientAt_eq_ite hy ht, if_pos hfit]
    rfl
  | succ t ih =>
    rw [divideFrom, if_neg hlo.not_gt, quotientAt_eq_ite hy ht]
    split_ifs with hle
    · exact ⟨t + 1, .self hlo hle, rfl⟩
    · have hne : x.sc - y.sc ≠ t + 1 := fun h => hle (h ▸ hfit)
      obtain ⟨u, hu, heq⟩ := ih (by omega) (by omega)
      exact ⟨u, hu.succ (Nat.not_le.1 hle), heq⟩

/-- DIV's search finds nothing when the lowest scale it tries does not fit. -/
theorem divideFrom_eq_none {x y : Triple} (hy : y.m ≠ 0)
    (hover : Config.max96 < roundedQuotient x y (x.sc - y.sc)) {t : Nat} (ht : t ≤ Config.smax) :
    divideFrom x y t = none := by
  refine Option.eq_none_iff_forall_ne_some.2 fun ⟨m, u⟩ h => ?_
  obtain ⟨-, hge, rfl, hfit⟩ := divideFrom_some_eq hy ht h
  exact absurd ((roundedQuotient_mono x y hge).trans hfit) hover.not_ge

/-- With a divisor at a scale not above the dividend's, the quotient at the lowest scale is no
larger than the dividend's mantissa. -/
theorem roundedQuotient_le_of_sc_le {x y : Triple} (hy : y.m ≠ 0) (h : y.sc ≤ x.sc) :
    roundedQuotient x y (x.sc - y.sc) ≤ x.m.toNat := by
  have hv := BitVec.toNat_pos_of_ne_zero hy
  have hmul : x.m.toNat * 1 ≤ x.m.toNat * y.m.toNat := Nat.mul_le_mul_left _ hv
  have hmul' : (x.m.toNat + 1) * (2 * y.m.toNat) = 2 * (x.m.toNat * y.m.toNat) + 2 * y.m.toNat := by
    ring
  have hgap : x.sc - y.sc + y.sc - x.sc = 0 := by omega
  rw [roundedQuotient, hgap, pow_zero, mul_one, ← Nat.lt_succ_iff, Nat.div_lt_iff_lt_mul (by omega)]
  change _ < (x.m.toNat + 1) * _
  omega

/-! ### Magnitudes with a sign (rule R10) -/

/-- The magnitude `q` with the sign `sg`. -/
def signed (sg : Bool) (q : ℚ) : ℚ := (if sg then -1 else 1) * q

theorem val_eq_signed (x : Triple) : x.val = signed x.sg (x.m.toNat / 10 ^ x.sc) :=
  mul_div_assoc _ _ _

theorem signed_not (sg : Bool) (q : ℚ) : signed (!sg) q = -signed sg q := by
  cases sg <;> simp [signed]

theorem signed_add (sg : Bool) (p q : ℚ) : signed sg (p + q) = signed sg p + signed sg q :=
  mul_add _ _ _

theorem signed_sub (sg : Bool) (p q : ℚ) : signed sg (p - q) = signed sg p - signed sg q :=
  mul_sub _ _ _

theorem signed_mul_signed (sg sg' : Bool) (p q : ℚ) :
    signed sg p * signed sg' q = signed (sg ^^ sg') (p * q) := by
  cases sg <;> cases sg' <;> simp [signed]

theorem signed_div_signed (sg sg' : Bool) (p q : ℚ) :
    signed sg p / signed sg' q = signed (sg ^^ sg') (p / q) := by
  cases sg <;> cases sg' <;> simp [signed, div_neg, neg_div]

@[simp] theorem abs_signed (sg : Bool) (q : ℚ) : |signed sg q| = |q| := by
  cases sg <;> simp [signed]

theorem portVal_enc {t : Triple} (h : t.sc ≤ Config.smax) : portVal (enc t) = t.val := by
  rw [portVal, dec_enc h]

theorem portVal_togglebit_sign (d : Port) : portVal (togglebit d 127) = -portVal d := by
  rw [portVal, dec_togglebit_sign, val_eq_signed, signed_not, ← val_eq_signed, portVal]

/-! ### One rounding (rules R67, R73) -/

/-- `q` is within a half of `n / d` when `q × d` is within half a divisor of `n`. -/
theorem abs_sub_div_le_half {q n d : ℚ} (hd : 0 < d) (hle : 2 * (q * d) ≤ 2 * n + d)
    (hge : 2 * n ≤ 2 * (q * d) + d) : |q - n / d| ≤ 1 / 2 := by
  have hdiff : q - n / d = (q * d - n) / d := by field_simp
  rw [hdiff, abs_div, abs_of_pos hd, div_le_iff₀ hd, abs_le]
  constructor <;> linarith

theorem abs_rhu_sub_le (n k : Nat) : |(rhu n k : ℚ) - n / 10 ^ k| ≤ 1 / 2 := by
  obtain ⟨hle, hlt⟩ := rhu_near n k
  exact abs_sub_div_le_half (by positivity) (by exact_mod_cast hle) (by exact_mod_cast hlt.le)

/-- The quotient rounded half up is within a half of the exact one. -/
theorem abs_div_half_up_sub_le (d : Nat) {v : Nat} (hv : 0 < v) :
    |(((2 * d + v) / (2 * v) : Nat) : ℚ) - d / v| ≤ 1 / 2 := by
  have hle : (2 * d + v) / (2 * v) * (2 * v) ≤ 2 * d + v := Nat.div_mul_le_self _ _
  have hlt : 2 * d + v < (2 * d + v) / (2 * v) * (2 * v) + 2 * v :=
    Nat.lt_div_mul_add (by omega)
  rw [Nat.mul_left_comm] at hle hlt
  have hge : 2 * d ≤ 2 * ((2 * d + v) / (2 * v) * v) + v := by omega
  exact abs_sub_div_le_half (by exact_mod_cast hv) (by exact_mod_cast hle) (by exact_mod_cast hge)

/-- A mantissa within a half of a magnitude at scale `u` is a Decimal within half a unit of the last
digit, whatever the common sign. -/
theorem abs_val_sub_signed_le {x : Triple} {q : ℚ}
    (h : |(x.m.toNat : ℚ) - q * 10 ^ x.sc| ≤ 1 / 2) :
    |x.val - signed x.sg q| * 10 ^ x.sc ≤ 1 / 2 := by
  have hten : (0 : ℚ) < 10 ^ x.sc := by positivity
  have hdiff : (x.m.toNat / 10 ^ x.sc - q) * 10 ^ x.sc = x.m.toNat - q * 10 ^ x.sc := by
    field_simp
  rwa [val_eq_signed, ← signed_sub, abs_signed, ← abs_of_pos hten, ← abs_mul, abs_of_pos hten,
    hdiff]

/-! ### A product or quotient is nearest (rules R89, R92) -/

/-- A command that fails does not end with status 0. -/
theorem raise_ne_done {c : Status} (hc : c.code ≠ 0#3) (s : State) (v : Port) :
    s.raise c ≠ s.done v :=
  fun h => hc (congrArg State.st h)

theorem endScaled_eq_done {s : State} {sg : Bool} {o : Option (Nat × Nat)} {v : Port}
    (h : s.endScaled sg o = s.done v) :
    ∃ m t, o = some (m, t) ∧ v = enc ⟨sg, BitVec.ofNat 96 m, t⟩ := by
  cases o with
  | none => exact absurd h (raise_ne_done (c := .overflow) (by decide) s v)
  | some mt => exact ⟨mt.1, mt.2, rfl, (congrArg State.r h).symm⟩

theorem endSum_eq_done {s : State} {o : Option Triple} {v : Port} (h : s.endSum o = s.done v) :
    ∃ t, o = some t ∧ v = enc t := by
  cases o with
  | none => exact absurd h (raise_ne_done (c := .overflow) (by decide) s v)
  | some t => exact ⟨t, rfl, (congrArg State.r h).symm⟩

/-- The value of a magnitude found by the searches of MUL and DIV. -/
theorem abs_portVal_scaled_sub_le {sg : Bool} {m t : Nat} {q : ℚ} (hm : m ≤ Config.max96)
    (ht : t ≤ Config.smax) (h : |(m : ℚ) - q * 10 ^ t| ≤ 1 / 2) :
    |portVal (enc ⟨sg, BitVec.ofNat 96 m, t⟩) - signed sg q|
      * 10 ^ (dec (enc ⟨sg, BitVec.ofNat 96 m, t⟩)).sc ≤ 1 / 2 := by
  have hdec : dec (enc ⟨sg, BitVec.ofNat 96 m, t⟩) = ⟨sg, BitVec.ofNat 96 m, t⟩ := dec_enc ht
  rw [portVal, hdec]
  exact abs_val_sub_signed_le (x := ⟨sg, BitVec.ofNat 96 m, t⟩)
    (by rwa [toNat_ofNat_of_le_max96 hm])

theorem abs_rhu_product_sub_le (m n : Nat) {i j u : Nat} (hu : u ≤ i + j) :
    |(rhu (m * n) (i + j - u) : ℚ) - m / 10 ^ i * (n / 10 ^ j) * 10 ^ u| ≤ 1 / 2 := by
  have hpow : (10 : ℚ) ^ i * 10 ^ j = 10 ^ (i + j - u) * 10 ^ u := by
    rw [← pow_add, ← pow_add, Nat.sub_add_cancel hu]
  have hexact : (m : ℚ) / 10 ^ i * (n / 10 ^ j) * 10 ^ u = (m * n : Nat) / 10 ^ (i + j - u) := by
    rw [div_mul_div_comm, hpow]
    push_cast
    field_simp
  rw [hexact]
  exact abs_rhu_sub_le _ _

theorem abs_roundedQuotient_sub_le {x y : Triple} (hy : y.m ≠ 0) {u : Nat} (hu : x.sc - y.sc ≤ u) :
    |(roundedQuotient x y u : ℚ) -
      x.m.toNat / 10 ^ x.sc / (y.m.toNat / 10 ^ y.sc) * 10 ^ u| ≤ 1 / 2 := by
  have hv := BitVec.toNat_pos_of_ne_zero hy
  have hpow : (10 : ℚ) ^ (u + y.sc - x.sc) * 10 ^ x.sc = 10 ^ u * 10 ^ y.sc := by
    rw [← pow_add, ← pow_add, Nat.sub_add_cancel (by omega)]
  have hexact : (x.m.toNat : ℚ) / 10 ^ x.sc / (y.m.toNat / 10 ^ y.sc) * 10 ^ u
      = (x.m.toNat * 10 ^ (u + y.sc - x.sc) : Nat) / y.m.toNat := by
    have hvq : (y.m.toNat : ℚ) ≠ 0 := by exact_mod_cast hv.ne'
    push_cast
    field_simp
    linear_combination (-(x.m.toNat : ℚ)) * hpow
  rw [hexact]
  exact abs_div_half_up_sub_le _ hv

theorem portVal_mul (a b : Port) : portVal a * portVal b =
    signed ((dec a).sg ^^ (dec b).sg)
      ((dec a).m.toNat / 10 ^ (dec a).sc * ((dec b).m.toNat / 10 ^ (dec b).sc)) := by
  rw [portVal, portVal, val_eq_signed, val_eq_signed, signed_mul_signed]

theorem portVal_div (a b : Port) : portVal a / portVal b =
    signed ((dec a).sg ^^ (dec b).sg)
      ((dec a).m.toNat / 10 ^ (dec a).sc / ((dec b).m.toNat / 10 ^ (dec b).sc)) := by
  rw [portVal, portVal, val_eq_signed, val_eq_signed, signed_div_signed]

theorem mul_near {a b v : Port} {s : State} (ha : valid a = true) (hb : valid b = true)
    (h : exec (.mul a b) s = .next (s.done v)) :
    |portVal v - portVal a * portVal b| * 10 ^ (dec v).sc ≤ 1 / 2 := by
  rw [exec_mul, withOperands_of_valid ha hb] at h
  obtain ⟨m, u, hsome, rfl⟩ := endScaled_eq_done (Host.Outcome.next.inj h)
  obtain ⟨hu, rfl, hfit⟩ := reduceProduct_some hsome
  obtain ⟨hfit, hsmax⟩ := (fits_iff _ _).1 hfit
  rw [portVal_mul]
  exact abs_portVal_scaled_sub_le hfit hsmax (abs_rhu_product_sub_le _ _ (by omega))

theorem div_near {a b v : Port} {s : State} (ha : valid a = true) (hb : valid b = true)
    (h : exec (.div a b) s = .next (s.done v)) :
    |portVal v - portVal a / portVal b| * 10 ^ (dec v).sc ≤ 1 / 2 := by
  rw [exec_div, withOperands_of_valid ha hb] at h
  have h := Host.Outcome.next.inj h
  rw [portVal_div]
  split_ifs at h with hmb hma
  · exact absurd h (raise_ne_done (by decide) s v)
  · obtain rfl := congrArg State.r h
    have hsc : max (dec a).sc (dec b).sc ≤ Config.smax :=
      max_le (scale_le_of_valid ha) (scale_le_of_valid hb)
    exact abs_portVal_scaled_sub_le (Nat.zero_le _) hsc (by simp [hma])
  · obtain ⟨m, u, hsome, rfl⟩ := endScaled_eq_done h
    obtain ⟨hsmax, hge, rfl, hfit⟩ := divideFrom_some_eq hmb le_rfl hsome
    exact abs_portVal_scaled_sub_le hfit hsmax (abs_roundedQuotient_sub_le hmb hge)

/-! ### The value of a sum (rule R87) -/

/-- `x` as COMMON leaves it beside `y` (rule R83). -/
def atCommon (x y : Triple) : Triple := ⟨x.sg, (common x y).mx, (common x y).s⟩

/-- The second operand as COMMON leaves it is the first one of the exchanged operands. -/
theorem atCommon_swap (x y : Triple) : atCommon y x = ⟨y.sg, (common x y).my, (common x y).s⟩ := by
  rw [atCommon, common_comm x y]

/-- `x` with its last `k` digits rounded away (rule R67). -/
def reducedBy (x : Triple) (k : Nat) : Triple := ⟨x.sg, rhu96 x.m k, x.sc - k⟩

theorem abs_val_reducedBy_sub_le (x : Triple) {k : Nat} (hk : k ≤ x.sc) :
    |(reducedBy x k).val - x.val| * 10 ^ (x.sc - k) ≤ 1 / 2 := by
  have hpow : (10 : ℚ) ^ x.sc = 10 ^ (x.sc - k) * 10 ^ k := by
    rw [← pow_add, Nat.sub_add_cancel hk]
  have hexact : (x.m.toNat : ℚ) / 10 ^ x.sc * 10 ^ (x.sc - k) = x.m.toNat / 10 ^ k := by
    rw [hpow]
    field_simp
  rw [val_eq_signed x]
  refine abs_val_sub_signed_le (x := reducedBy x k) ?_
  change |((rhu96 x.m k).toNat : ℚ) - x.m.toNat / 10 ^ x.sc * 10 ^ (x.sc - k)| ≤ 1 / 2
  rw [hexact, rhu96_toNat]
  exact abs_rhu_sub_le _ _

/-- Beside an operand of no lower scale, `x` keeps its value; that operand has as many digits
rounded away as alignment could not reach. -/
theorem atCommon_of_le {x y : Triple} (h : x.sc ≤ y.sc) :
    (atCommon x y).val = x.val ∧ ∃ k ≤ y.sc, atCommon y x = reducedBy y k := by
  obtain ⟨j, ⟨hj, hfit, -⟩, heq⟩ := exists_common_eq h
  refine ⟨?_, y.sc - (x.sc + j), Nat.sub_le _ _, ?_⟩
  · rw [atCommon, heq]
    exact val_raisedBy hfit
  · rw [atCommon_swap, heq, reducedBy, Nat.sub_sub_self (by omega)]

theorem common_s_comm (x y : Triple) : (common y x).s = (common x y).s := by
  rw [common_comm x y]

/-- COMMON moves the sum of the values by at most half a unit of the common scale's last digit. -/
theorem abs_atCommon_sum_sub_le (x y : Triple) :
    |(atCommon x y).val + (atCommon y x).val - (x.val + y.val)| * 10 ^ (common x y).s ≤ 1 / 2 := by
  wlog h : x.sc ≤ y.sc generalizing x y
  · rw [add_comm, add_comm x.val, ← common_s_comm]
    exact this y x (by omega)
  · obtain ⟨hx, k, hk, hy⟩ := atCommon_of_le h
    have hs : (common x y).s = y.sc - k := (common_s_comm x y).symm.trans (congrArg Triple.sc hy)
    rw [hx, hy, hs, add_sub_add_left_eq_sub]
    exact abs_val_reducedBy_sub_le y hk

theorem noStall_fits {x y : Triple} (h : noStall x y = true) :
    x.m.toNat * 10 ^ (y.sc - x.sc) ≤ Config.max96 := by
  rw [noStall, Bool.and_eq_true, decide_eq_true_iff] at h
  exact h.1

/-- Without a stall COMMON only raises: nothing is rounded. -/
theorem atCommon_of_noStall {x y : Triple} (h : noStall x y = true) :
    atCommon x y = raisedBy x (y.sc - x.sc) := by
  rcases le_total x.sc y.sc with hle | hle
  · obtain ⟨j, hsteps, heq⟩ := exists_common_eq hle
    obtain rfl : j = y.sc - x.sc := hsteps.eq_gap_iff.2 (noStall_fits h)
    rw [atCommon, heq]
    rfl
  · obtain ⟨j, hsteps, heq⟩ := exists_common_eq hle
    obtain rfl : j = x.sc - y.sc := hsteps.eq_gap_iff.2 (noStall_fits ((noStall_comm x y).trans h))
    have hsc : y.sc + (x.sc - y.sc) = x.sc := by omega
    rw [atCommon_swap, heq, Nat.sub_eq_zero_of_le hle]
    simp [raisedBy, rhu96, hsc]

theorem atCommon_val_of_noStall {x y : Triple} (h : noStall x y = true) :
    (atCommon x y).val = x.val := by
  rw [atCommon_of_noStall h, val_raisedBy (noStall_fits h)]

/-! ### The value ADDCORE gives (rule R84) -/

theorem val_ofNat {n : Nat} (h : n ≤ Config.max96) (sg : Bool) (sc : Nat) :
    (⟨sg, BitVec.ofNat 96 n, sc⟩ : Triple).val = signed sg (n / 10 ^ sc) := by
  rw [val_eq_signed, toNat_ofNat_of_le_max96 h]

/-- Adding magnitudes of one sign is exact as long as the sum fits. -/
theorem val_sum {m n : Mantissa} (h : m.toNat + n.toNat ≤ Config.max96) (sg : Bool) (sc : Nat) :
    (⟨sg, BitVec.ofNat 96 (m.toNat + n.toNat), sc⟩ : Triple).val =
      (⟨sg, m, sc⟩ : Triple).val + (⟨sg, n, sc⟩ : Triple).val := by
  rw [val_ofNat h, val_eq_signed, val_eq_signed, ← signed_add, ← add_div, Nat.cast_add]

/-- The larger of two magnitudes of opposite signs less the smaller is exact. -/
theorem val_difference {m n : Mantissa} (h : n.toNat ≤ m.toNat) (sg : Bool) (sc : Nat) :
    (⟨sg, BitVec.ofNat 96 (m.toNat - n.toNat), sc⟩ : Triple).val =
      (⟨sg, m, sc⟩ : Triple).val + (⟨!sg, n, sc⟩ : Triple).val := by
  rw [val_ofNat ((Nat.sub_le _ _).trans (toNat_le_max96 m)), val_eq_signed, val_eq_signed,
    signed_not, ← sub_eq_add_neg, ← signed_sub, ← sub_div, Nat.cast_sub h]

theorem basicSub_val {sx sy : Bool} (h : sx ≠ sy) (c : CommonScale) :
    (basicSub sx sy c).val = (⟨sx, c.mx, c.s⟩ : Triple).val + (⟨sy, c.my, c.s⟩ : Triple).val := by
  have hsx : sx = !sy := Bool.eq_not_of_ne h
  have hsy : sy = !sx := Bool.eq_not_of_ne h.symm
  rcases lt_trichotomy c.mx.toNat c.my.toNat with hlt | heq | hgt
  · rw [basicSub_of_lt sx sy hlt, val_difference hlt.le, add_comm, hsx]
  · rw [basicSub_of_eq sx sy heq, val_eq_signed ⟨sx, _, _⟩, val_eq_signed ⟨sy, _, _⟩, hsy, heq,
      signed_not, add_neg_cancel]
    simp [Triple.val]
  · rw [basicSub_of_gt sx sy hgt, val_difference hgt.le, hsy]

/-- ADDCORE is exact on the two mantissas at the common scale, unless their sum carries. -/
theorem exists_addCore_exact {x y : Triple}
    (h : x.sg ≠ y.sg ∨ (common x y).mx.toNat + (common x y).my.toNat ≤ Config.max96) :
    ∃ t, addCore x y = some t ∧ t.sc = (common x y).s ∧
      t.val = (atCommon x y).val + (atCommon y x).val := by
  rw [atCommon_swap x y, atCommon]
  by_cases hsg : x.sg = y.sg
  · have hfit := h.resolve_left (not_not.2 hsg)
    refine ⟨_, (addCore_of_sg_eq hsg).trans (basicAdd_of_fits _ hfit), rfl, ?_⟩
    rw [← hsg]
    exact val_sum hfit _ _
  · exact ⟨_, addCore_of_sg_ne hsg, basicSub_scale _ _ _, basicSub_val hsg _⟩

/-- What ADDCORE answers: the exact sum at the common scale, or after a carry the sum of the two
mantissas reduced by a digit, one scale lower. -/
theorem addCore_some_cases {x y t : Triple} (h : addCore x y = some t) :
    (t.sc = (common x y).s ∧ t.val = (atCommon x y).val + (atCommon y x).val) ∨
      (x.sg = y.sg ∧ Config.max96 < (common x y).mx.toNat + (common x y).my.toNat ∧
        t.sc + 1 = (common x y).s ∧
        t.val = (reducedBy (atCommon x y) 1).val + (reducedBy (atCommon y x) 1).val) := by
  by_cases hexact : x.sg ≠ y.sg ∨ (common x y).mx.toNat + (common x y).my.toNat ≤ Config.max96
  · obtain ⟨u, hu, hval⟩ := exists_addCore_exact hexact
    obtain rfl : u = t := Option.some.inj (hu.symm.trans h)
    exact .inl hval
  · rw [not_or, not_not, not_le] at hexact
    obtain ⟨hsg, hcarry⟩ := hexact
    rcases Nat.eq_zero_or_pos (common x y).s with hs | hs
    · rw [addCore_of_sg_eq hsg, basicAdd_of_overflow _ hcarry hs] at h
      exact absurd h nofun
    · rw [addCore_of_sg_eq hsg, basicAdd_of_carry _ hcarry hs] at h
      obtain rfl := Option.some.inj h
      refine .inr ⟨hsg, hcarry, Nat.sub_add_cancel hs, ?_⟩
      have hfit := rhu_one_add_rhu_one_le (common x y).mx (common x y).my
      rw [← rhu96_toNat, ← rhu96_toNat] at hfit ⊢
      rw [atCommon_swap x y, reducedBy, reducedBy, atCommon, ← hsg]
      exact val_sum hfit _ _

/-- The two reductions after a carry move the sum by at most one unit of the result's last digit. -/
theorem abs_reduced_sum_sub_le {x y : Triple} {sc : Nat} (hx : x.sc = sc + 1) (hy : y.sc = sc + 1) :
    |(reducedBy x 1).val + (reducedBy y 1).val - (x.val + y.val)| * 10 ^ sc ≤ 1 := by
  have hredx := abs_val_reducedBy_sub_le x (k := 1) (by omega)
  have hredy := abs_val_reducedBy_sub_le y (k := 1) (by omega)
  rw [hx, Nat.add_sub_cancel] at hredx
  rw [hy, Nat.add_sub_cancel] at hredy
  calc |(reducedBy x 1).val + (reducedBy y 1).val - (x.val + y.val)| * 10 ^ sc
      ≤ (|(reducedBy x 1).val - x.val| + |(reducedBy y 1).val - y.val|) * 10 ^ sc := by
        rw [add_sub_add_comm]
        gcongr
        exact abs_add_le _ _
    _ ≤ 1 := by linarith

section
variable {x y t : Triple}

/-- Without a carry the only rounding is COMMON's. -/
theorem addCore_error_le_half (h : addCore x y = some t)
    (hexact : x.sg ≠ y.sg ∨ (common x y).mx.toNat + (common x y).my.toNat ≤ Config.max96) :
    |t.val - (x.val + y.val)| * 10 ^ t.sc ≤ 1 / 2 := by
  obtain ⟨u, hu, hsc, hval⟩ := exists_addCore_exact hexact
  obtain rfl : u = t := Option.some.inj (hu.symm.trans h)
  rw [hsc, hval]
  exact abs_atCommon_sum_sub_le x y

/-- ADDCORE is within one unit of the sum of what COMMON left. -/
theorem addCore_error_at_common_le_one (h : addCore x y = some t) :
    |t.val - ((atCommon x y).val + (atCommon y x).val)| * 10 ^ t.sc ≤ 1 := by
  rcases addCore_some_cases h with ⟨-, hval⟩ | ⟨-, -, hsc, hval⟩
  · rw [hval]
    simp
  · rw [hval]
    exact abs_reduced_sum_sub_le hsc.symm ((common_s_comm x y).trans hsc.symm)

/-- Without a stall the only roundings are the two reductions after a carry. -/
theorem addCore_error_le_one (h : addCore x y = some t) (hns : noStall x y = true) :
    |t.val - (x.val + y.val)| * 10 ^ t.sc ≤ 1 := by
  have hnear := addCore_error_at_common_le_one h
  rwa [atCommon_val_of_noStall hns, atCommon_val_of_noStall ((noStall_comm x y).trans hns)] at hnear

/-- After a carry COMMON's half unit counts for a twentieth in the result's last digit. -/
theorem addCore_error_le (h : addCore x y = some t) :
    |t.val - (x.val + y.val)| * 10 ^ t.sc ≤ 21 / 20 := by
  rcases addCore_some_cases h with ⟨hsc, hval⟩ | ⟨-, -, hsc, -⟩
  · have hcommon := abs_atCommon_sum_sub_le x y
    rw [← hsc, ← hval] at hcommon
    linarith
  · have hnear := addCore_error_at_common_le_one h
    have hcommon := abs_atCommon_sum_sub_le x y
    rw [← hsc, pow_succ, ← mul_assoc] at hcommon
    calc |t.val - (x.val + y.val)| * 10 ^ t.sc
        ≤ (|t.val - ((atCommon x y).val + (atCommon y x).val)| +
            |(atCommon x y).val + (atCommon y x).val - (x.val + y.val)|) * 10 ^ t.sc := by
          gcongr
          exact abs_sub_le _ _ _
      _ ≤ 21 / 20 := by linarith

end

theorem add_eq_done {a b v : Port} {s : State} (ha : valid a = true) (hb : valid b = true)
    (h : exec (.add a b) s = .next (s.done v)) :
    ∃ t, addCore (dec a) (dec b) = some t ∧ dec v = t := by
  rw [exec_add, withOperands_of_valid ha hb] at h
  obtain ⟨t, ht, rfl⟩ := endSum_eq_done (Host.Outcome.next.inj h)
  have hsc : t.sc ≤ Config.smax :=
    (addCore_scale_le ht).trans (max_le (scale_le_of_valid ha) (scale_le_of_valid hb))
  exact ⟨t, ht, dec_enc hsc⟩

theorem exec_add_enc {x y t : Triple} (hx : x.sc ≤ Config.smax) (hy : y.sc ≤ Config.smax)
    (h : addCore x y = some t) (s : State) :
    exec (.add (enc x) (enc y)) s = .next (s.done (enc t)) := by
  rw [exec_add, withOperands_of_valid (valid_enc hx) (valid_enc hy), dec_enc hx, dec_enc hy, h]
  rfl

/-- AD31, a stall and then a carry, for which all three roundings go up. -/
theorem add_error_reached :
    ∃ a b v : Port, ∀ s : State, exec (.add a b) s = .next (s.done v) ∧
      |portVal v - (portVal a + portVal b)| * 10 ^ (dec v).sc = 21 / 20 := by
  have h : addCore ⟨false, BitVec.ofNat 96 Config.max96, 1⟩ ⟨false, 45#96, 2⟩ =
      some ⟨false, 7922816251426433759354395035#96, 0⟩ := by decide
  refine ⟨enc _, enc _, enc _, fun s => ⟨exec_add_enc (by decide) (by decide) h s, ?_⟩⟩
  rw [portVal_enc, portVal_enc, portVal_enc, dec_enc]
  · norm_num [Triple.val, abs_of_pos]
  all_goals decide

/-- ADDCORE without a stall and without a carry is exact, at the larger scale. -/
theorem exists_addCore_of_noStall {x y : Triple} (hns : noStall x y = true)
    (h : x.sg ≠ y.sg ∨
      x.m.toNat * 10 ^ (y.sc - x.sc) + y.m.toNat * 10 ^ (x.sc - y.sc) ≤ Config.max96) :
    ∃ t, addCore x y = some t ∧ t.sc = max x.sc y.sc ∧ t.val = x.val + y.val := by
  have hns' : noStall y x = true := (noStall_comm x y).trans hns
  have hx := atCommon_of_noStall hns
  have hy := atCommon_of_noStall hns'
  have hmx : (common x y).mx.toNat = x.m.toNat * 10 ^ (y.sc - x.sc) :=
    (congrArg (·.m.toNat) hx).trans (toNat_raisedBy_m (noStall_fits hns))
  have hmy : (common x y).my.toNat = y.m.toNat * 10 ^ (x.sc - y.sc) := by
    rw [atCommon_swap] at hy
    exact (congrArg (·.m.toNat) hy).trans (toNat_raisedBy_m (noStall_fits hns'))
  have hs : (common x y).s = x.sc + (y.sc - x.sc) := congrArg Triple.sc hx
  rw [← hmx, ← hmy] at h
  obtain ⟨t, ht, hsc, hval⟩ := exists_addCore_exact h
  refine ⟨t, ht, by omega, ?_⟩
  rw [hval, atCommon_val_of_noStall hns, atCommon_val_of_noStall hns']

/-- Rule R87 (3) for ADD. -/
theorem exists_add_exact {a b : Port} (ha : valid a = true) (hb : valid b = true)
    (hns : noStall (dec a) (dec b) = true)
    (h : (dec a).sg ≠ (dec b).sg ∨
      (dec a).m.toNat * 10 ^ ((dec b).sc - (dec a).sc)
        + (dec b).m.toNat * 10 ^ ((dec a).sc - (dec b).sc) ≤ Config.max96) (s : State) :
    ∃ v, exec (.add a b) s = .next (s.done v) ∧ valid v = true ∧
      (dec v).sc = max (dec a).sc (dec b).sc ∧ portVal v = portVal a + portVal b := by
  obtain ⟨t, ht, hsc, hval⟩ := exists_addCore_of_noStall hns h
  have htsc : t.sc ≤ Config.smax :=
    hsc.trans_le (max_le (scale_le_of_valid ha) (scale_le_of_valid hb))
  refine ⟨enc t, ?_, valid_enc htsc, by rw [dec_enc htsc, hsc], (portVal_enc htsc).trans hval⟩
  rw [exec_add, withOperands_of_valid ha hb, ht]
  rfl

/-! ### The obligations -/

/-- Settles O21: COMMON in closed form, and its symmetry. -/
theorem commonScaleRoundsTheOtherOperand : Obligations.CommonScaleRoundsTheOtherOperand := by
  intro x y h
  obtain ⟨j, hsteps, heq⟩ := exists_common_eq h
  have ⟨_, hfit, _⟩ := hsteps
  refine ⟨⟨j, hsteps, ?_⟩, common_comm x y⟩
  rw [heq]
  exact ⟨rfl, toNat_raisedBy_m hfit, rhu96_toNat _ _⟩

/-- Settles O22, by the case of ADDCORE that the signs and sizes select. -/
theorem addFollowsTheSigns : Obligations.AddFollowsTheSigns := by
  intro a b s
  refine ⟨fun h => by rw [exec_add, withOperands_of_invalid h]; rfl, fun ha hb => ?_⟩
  rintro _ _ _ _ _ rfl rfl rfl rfl rfl
  rw [exec_add, withOperands_of_valid ha hb]
  refine ⟨fun hsg h => ?_, fun hsg h hs => ⟨rhu_one_add_rhu_one_le _ _, ?_⟩, fun hsg h hs => ?_,
    fun hsg h => ?_, fun hsg h => ?_, fun hsg h => ?_⟩
  · rw [addCore_of_sg_eq hsg, basicAdd_of_fits _ h]
    rfl
  · rw [addCore_of_sg_eq hsg, basicAdd_of_carry _ h hs]
    rfl
  · rw [addCore_of_sg_eq hsg, basicAdd_of_overflow _ h hs]
    rfl
  · rw [addCore_of_sg_ne hsg, basicSub_of_eq _ _ h]
    rfl
  · rw [addCore_of_sg_ne hsg, basicSub_of_gt _ _ h]
    rfl
  · rw [addCore_of_sg_ne hsg, basicSub_of_lt _ _ h]
    rfl

/-- Settles O23: toggling bit 127 changes neither validity nor anything decoded but the sign. -/
theorem subAddsTheInvertedOperand : Obligations.SubAddsTheInvertedOperand := exec_sub_eq_exec_add

/-- Settles O24: SUB's clause is ADD's with the sign bit of `b` inverted. -/
theorem addAndSubAreExactWithoutLoss : Obligations.AddAndSubAreExactWithoutLoss := by
  rintro a b s m ha hb hns rfl
  refine ⟨fun h => exists_add_exact ha hb hns h s, fun h => ?_⟩
  have hadd := exists_add_exact (b := togglebit b 127) ha ((valid_togglebit_sign b).trans hb)
  rw [dec_togglebit_sign, portVal_togglebit_sign, ← sub_eq_add_neg] at hadd
  rw [exec_sub_eq_exec_add]
  exact hadd hns (h.imp_left fun hsg => by simp [hsg]) s

/-- Settles O25: the bounds are ADDCORE's, and AD31 reaches the largest. -/
theorem addErrorIsBounded : Obligations.AddErrorIsBounded := by
  refine ⟨fun a b s v ha hb h => ?_, add_error_reached⟩
  obtain ⟨t, ht, hv⟩ := add_eq_done ha hb h
  simp only [portVal, hv]
  exact ⟨addCore_error_le ht, addCore_error_le_one ht, addCore_error_le_half ht⟩

/-- Settles O27: ADDCORE is symmetric, and so are MUL's sign, product and scale. -/
theorem addAndMulCommute : Obligations.AddAndMulCommute := by
  intro a b s
  refine ⟨?_, ?_⟩
  · rw [exec_add, exec_add]
    exact withOperands_swap a b s (by rw [addCore_comm])
  · rw [exec_mul, exec_mul]
    refine withOperands_swap a b s ?_
    rw [Bool.xor_comm, Nat.mul_comm, Nat.add_comm]

/-- Settles O28: adding the negation is subtracting the value itself. -/
theorem addOfNegationIsPlusZero : Obligations.AddOfNegationIsPlusZero := by
  intro a s ha
  have hsub : exec (.sub a a) s = .next (s.done (enc ⟨false, 0, (dec a).sc⟩)) := by
    rw [exec_sub, withOperands_of_valid ha ha, addCore_neg_self]
    rfl
  refine ⟨togglebit a 127, exec_neg_of_valid ha s, ?_, hsub⟩
  rw [← exec_sub_eq_exec_add]
  exact hsub

/-- Settles O29, by what MUL's search finds. -/
theorem mulTakesLargestFittingScale : Obligations.MulTakesLargestFittingScale := by
  intro a b s
  refine ⟨fun h => by rw [exec_mul, withOperands_of_invalid h]; rfl, fun ha hb => ?_⟩
  rintro p sc rfl rfl
  rw [exec_mul, withOperands_of_valid ha hb]
  refine ⟨fun hfit => ?_, fun hover => by rw [reduceProduct_eq_none hover]; rfl⟩
  obtain ⟨t, ⟨-, hle, hfit, hmax⟩, heq⟩ := exists_reduceProduct_eq hfit (Nat.min_le_right _ _)
  exact ⟨t, hle, hfit, hmax, by rw [heq]; rfl⟩

/-- Settles O30: the two tests, in their order. -/
theorem divTestsDivisorThenDividend : Obligations.DivTestsDivisorThenDividend := by
  intro a b s ha hb
  rw [exec_div, withOperands_of_valid ha hb]
  exact ⟨fun h => by rw [if_pos h]; rfl, fun h h' => by rw [if_neg h, if_pos h']; rfl⟩

/-- Settles O31: after the two tests of O30, what DIV's search finds. -/
theorem divTakesLargestFittingScale : Obligations.DivTakesLargestFittingScale := by
  intro a b s
  refine ⟨fun h => by rw [exec_div, withOperands_of_invalid h]; rfl, fun ha hb => ?_⟩
  obtain ⟨hdivisor, hdividend⟩ := divTestsDivisorThenDividend a b s ha hb
  refine ⟨hdivisor, hdividend, ?_⟩
  rw [exec_div, withOperands_of_valid ha hb]
  refine ⟨fun hmb hma hfit => ?_, fun hmb hma hover => ?_⟩
  · have hlo : (dec a).sc - (dec b).sc ≤ Config.smax :=
      (Nat.sub_le _ _).trans (scale_le_of_valid ha)
    obtain ⟨t, ⟨hge, hle, hfit, hmax⟩, heq⟩ := exists_divideFrom_eq hmb hfit le_rfl hlo
    exact ⟨t, hge, hle, hfit, hmax, by rw [if_neg hmb, if_neg hma, heq]; rfl⟩
  · rw [if_neg hmb, if_neg hma, divideFrom_eq_none hmb hover le_rfl]
    rfl

/-- Settles O32: MUL and DIV round once, from the exact product or quotient. -/
theorem productsAndQuotientsAreNearest : Obligations.ProductsAndQuotientsAreNearest :=
  fun _ _ _ _ ha hb => ⟨mul_near ha hb, div_near ha hb⟩

/-- Settles O33: the quotient at scale `ea - eb` is no larger than the dividend's mantissa,
so the search finds a scale. -/
theorem divFitsWhenDividendScaleIsNotLower : Obligations.DivFitsWhenDividendScaleIsNotLower := by
  intro a b s ha hb hmb hsc
  have hsa : (dec a).sc ≤ Config.smax := scale_le_of_valid ha
  rw [exec_div, withOperands_of_valid ha hb, if_neg hmb]
  by_cases hma : (dec a).m = 0
  · rw [if_pos hma]
    exact ⟨_, rfl, valid_enc (max_le hsa (scale_le_of_valid hb))⟩
  · have hfit := (roundedQuotient_le_of_sc_le hmb hsc).trans (toNat_le_max96 _)
    obtain ⟨t, ht, heq⟩ := exists_divideFrom_eq hmb hfit le_rfl ((Nat.sub_le _ _).trans hsa)
    rw [if_neg hma, heq]
    exact ⟨_, rfl, valid_enc ht.le⟩

end Sys2Proof.Machine

end

section
/-! SUPPORT. Proofs for the family `43_comparator.md`: ORDER is the comparison of the rational
values (rules R95, R96), and what the six comparison commands leave in F (rules R94, R97 to
R102). -/

namespace Sys2Proof.Machine

/-! ### ORDER (rule R95) -/

/-- At one scale the mantissas compare as the magnitudes. -/
theorem cmpm_eq_cmp_abs_val {x y : Triple} (h : x.sc = y.sc) :
    cmpm x.m y.m = cmp |x.val| |y.val| := by
  have hscaled : StrictMono fun n : Nat => (n : ℚ) / 10 ^ y.sc := fun _ _ hlt =>
    div_lt_div_of_pos_right (Nat.cast_lt.2 hlt) (by positivity)
  rw [cmpm_eq_compare, ← cmp_eq_compare, abs_val, abs_val, h]
  exact (hscaled.cmp_map_eq x.m.toNat y.m.toNat).symm

/-- After alignment, or by the stall, the magnitudes are in the order of the absolute values. -/
theorem magnitudeOrder_eq_cmp_abs_val (x y : Triple) :
    magnitudeOrder x y = cmp |x.val| |y.val| := by
  simp only [magnitudeOrder]
  split_ifs with hx hy
  · exact ((stalledOperandIsLarger x y _ _ rfl hx).2.cmp_eq_gt).symm
  · exact ((stalledOperandIsLarger y x _ _ rfl hy).2.cmp_eq_lt).symm
  · have hsc : (align96 x y).1.sc = (align96 x y).2.sc := le_antisymm (not_lt.1 hy) (not_lt.1 hx)
    rw [cmpm_eq_cmp_abs_val hsc, align96, raiseTo_val, raiseTo_val]

theorem val_eq_zero_iff (x : Triple) : x.val = 0 ↔ x.m = 0 := by
  have hten : (10 : ℚ) ^ x.sc ≠ 0 := by positivity
  rw [← abs_eq_zero, abs_val, div_eq_zero_iff, or_iff_left hten, Nat.cast_eq_zero]
  exact BitVec.toNat_inj (y := 0#96)

/-- The sign ORDER reads, zero counting as positive, is the sign of the value. -/
theorem orderSign_eq_decide_val_neg (x : Triple) :
    (if x.m = 0 then false else x.sg) = decide (x.val < 0) := by
  by_cases hm : x.m = 0
  · rw [if_pos hm, (val_eq_zero_iff x).2 hm]
    simp
  · have habs : 0 < |x.val| := abs_pos.2 ((val_eq_zero_iff x).not.2 hm)
    have hval : x.val = signed x.sg |x.val| := by rw [abs_val, val_eq_signed]
    rw [if_neg hm, hval]
    cases x.sg
    · simp [signed]
    · simpa [signed] using habs

/-- ORDER compares the values: by sign where the signs differ, by magnitude where they agree. -/
theorem order_eq_cmp_val (x y : Triple) : order x y = cmp x.val y.val := by
  simp only [order]
  rw [orderSign_eq_decide_val_neg x, orderSign_eq_decide_val_neg y, magnitudeOrder_eq_cmp_abs_val]
  simp only [← val_eq_zero_iff]
  rcases lt_or_ge x.val 0 with hx | hx <;> rcases lt_or_ge y.val 0 with hy | hy
  · have hneg : StrictAnti fun q : ℚ => -q := fun _ _ => neg_lt_neg
    rw [abs_of_neg hx, abs_of_neg hy, hneg.cmp_map_eq, cmp_swap]
    simp [hx, hy, hx.ne]
  · simp [hx, hx.ne, hy.not_gt, (hx.trans_le hy).cmp_eq_lt]
  · simp [hy, hy.ne, hx.not_gt, (hy.trans_le hx).cmp_eq_gt]
  · rw [abs_of_nonneg hx, abs_of_nonneg hy]
    by_cases hzero : x.val = 0 ∧ y.val = 0
    · rw [if_pos hzero, hzero.1, hzero.2, cmp_self_eq_eq]
    · simp [hzero, hx.not_gt, hy.not_gt]

/-! ### The flag of each comparison (rules R97 to R102) -/

theorem flagEq_iff {o : Ordering} : flagEq o = true ↔ o = .eq := beq_iff_eq

theorem flagLt_iff {o : Ordering} : flagLt o = true ↔ o = .lt := beq_iff_eq

theorem flagGt_iff {o : Ordering} : flagGt o = true ↔ o = .gt := beq_iff_eq

theorem flagNe_iff {o : Ordering} : flagNe o = true ↔ o ≠ .eq := bne_iff_ne

theorem flagLe_iff {o : Ordering} : flagLe o = true ↔ o ≠ .gt := bne_iff_ne

theorem flagGe_iff {o : Ordering} : flagGe o = true ↔ o ≠ .lt := bne_iff_ne

/-! ### The comparison commands (rule R94) -/

theorem compareWith_of_invalid {a b : Port} (h : valid a = false ∨ valid b = false)
    (test : Ordering → Bool) (s : State) :
    compareWith test a b s = .next (s.raise .invalidInput) :=
  withOperands_of_invalid h s _

/-- On valid operands F takes the truth of whatever the test decides about ORDER. -/
theorem compareWith_of_valid {a b : Port} (ha : valid a = true) (hb : valid b = true)
    {test : Ordering → Bool} {p : Prop} [Decidable p]
    (h : test (order (dec a) (dec b)) = true ↔ p) (s : State) :
    compareWith test a b s = .next (s.doneFlag (decide p)) := by
  have htest : test (order (dec a) (dec b)) = decide p := by
    rw [Bool.eq_iff_iff, h, decide_eq_true_iff]
  rw [compareWith, withOperands_of_valid ha hb, htest]

/-! ### The obligations -/

/-- Settles O34: ORDER is the comparison of the two values. -/
theorem orderIsTheOrderOfValues : Obligations.OrderIsTheOrderOfValues := by
  intro x y
  rw [order_eq_cmp_val]
  exact ⟨cmp_eq_lt_iff _ _, cmp_eq_eq_iff _ _, cmp_eq_gt_iff _ _⟩

/-- Settles O35: each command is `compareWith` of its own test. -/
theorem comparisonsWriteTheFlag : Obligations.ComparisonsWriteTheFlag := by
  intro a b s
  refine ⟨fun h => ?_, fun ha hb => ?_⟩
  · have hinvalid := fun test => compareWith_of_invalid h test s
    exact ⟨hinvalid flagEq, hinvalid flagNe, hinvalid flagLt, hinvalid flagLe, hinvalid flagGt,
      hinvalid flagGe⟩
  · exact ⟨compareWith_of_valid ha hb flagEq_iff s, compareWith_of_valid ha hb flagNe_iff s,
      compareWith_of_valid ha hb flagLt_iff s, compareWith_of_valid ha hb flagLe_iff s,
      compareWith_of_valid ha hb flagGt_iff s, compareWith_of_valid ha hb flagGe_iff s⟩

/-- Settles O36: what each test reads off ORDER is the comparison of the values. -/
theorem comparisonsDecideTheValues : Obligations.ComparisonsDecideTheValues := by
  intro a b s ha hb
  obtain ⟨hlt, heq, hgt⟩ := orderIsTheOrderOfValues (dec a) (dec b)
  have hge := hlt.not.trans not_lt
  have hle := hgt.not.trans not_lt
  exact ⟨compareWith_of_valid ha hb (flagLt_iff.trans hlt) s,
    compareWith_of_valid ha hb (flagEq_iff.trans heq) s,
    compareWith_of_valid ha hb (flagGt_iff.trans hgt) s,
    compareWith_of_valid ha hb (flagGe_iff.trans hge) s,
    compareWith_of_valid ha hb (flagNe_iff.trans heq.not) s,
    compareWith_of_valid ha hb (flagLe_iff.trans hle) s⟩

end Sys2Proof.Machine

end

section
/-! SUPPORT. Proofs for the family `44_rounder.md`: what TRUNC, FLOOR, ROUND and NEG leave in R and
ST (rules R103 to R107), and the laws of their values (rule R108). -/

namespace Sys2Proof.Machine

/-! ### A result of scale 0 (rule R103) -/

/-- What TRUNC, FLOOR and ROUND write to R: a magnitude at scale 0 with the operand's sign bit. -/
def integerPort (sg : Bool) (n : Nat) : Port := enc ⟨sg, BitVec.ofNat 96 n, 0⟩

theorem dec_integerPort (sg : Bool) (n : Nat) :
    dec (integerPort sg n) = ⟨sg, BitVec.ofNat 96 n, 0⟩ :=
  dec_enc (Nat.zero_le _)

theorem sg_dec_integerPort (sg : Bool) (n : Nat) : (dec (integerPort sg n)).sg = sg := by
  rw [dec_integerPort]

theorem toNat_dec_integerPort_m {n : Nat} (h : n ≤ Config.max96) (sg : Bool) :
    (dec (integerPort sg n)).m.toNat = n := by
  rw [dec_integerPort, toNat_ofNat_of_le_max96 h]

theorem portVal_integerPort {n : Nat} (h : n ≤ Config.max96) (sg : Bool) :
    portVal (integerPort sg n) = signed sg n := by
  rw [portVal, dec_integerPort, val_ofNat h, pow_zero, div_one]

/-- An operand of scale 0 is its own magnitude at scale 0. -/
theorem integerPort_dec {a : Port} (ha : valid a = true) (hsc : (dec a).sc = 0) :
    integerPort (dec a).sg (dec a).m.toNat = a := by
  rw [integerPort, BitVec.ofNat_toNat, BitVec.setWidth_eq, ← hsc]
  exact enc_dec ha

/-! ### The sign bit of an encoding (rule R107) -/

theorem enc_not_dec {a : Port} (ha : valid a = true) :
    enc ⟨!(dec a).sg, (dec a).m, (dec a).sc⟩ = togglebit a 127 := by
  rw [← enc_dec ((valid_togglebit_sign a).trans ha), dec_togglebit_sign]

theorem togglebit_integerPort (sg : Bool) (n : Nat) :
    togglebit (integerPort sg n) 127 = integerPort (!sg) n := by
  have hvalid : valid (integerPort sg n) = true := valid_enc (Nat.zero_le _)
  rw [← enc_not_dec hvalid, dec_integerPort, integerPort]

/-! ### The commands and their operand check (rules R47, R103) -/

theorem exec_trunc (a : Port) (s : State) :
    exec (.trunc a) s = withOperand a s fun x =>
      s.done (integerPort x.sg (truncp x.m.toNat x.sc)) := rfl

theorem exec_floor (a : Port) (s : State) :
    exec (.floor a) s = withOperand a s fun x => s.done (integerPort x.sg (floorMagnitude x)) := rfl

theorem exec_round (a : Port) (s : State) :
    exec (.round a) s = withOperand a s fun x =>
      s.done (integerPort x.sg (rhu x.m.toNat x.sc)) := rfl

theorem withOperand_of_invalid {a : Port} (ha : valid a = false) (s : State) (k : Triple → State) :
    withOperand a s k = .next (s.raise .invalidInput) := by
  rw [withOperand, if_neg (by simp [ha])]

section
variable {a : Port} (ha : valid a = true) (s : State)
include ha

theorem exec_trunc_of_valid : exec (.trunc a) s =
    .next (s.done (integerPort (dec a).sg (truncp (dec a).m.toNat (dec a).sc))) := by
  rw [exec_trunc, withOperand_of_valid ha]

theorem exec_floor_of_valid : exec (.floor a) s =
    .next (s.done (integerPort (dec a).sg (floorMagnitude (dec a)))) := by
  rw [exec_floor, withOperand_of_valid ha]

theorem exec_round_of_valid : exec (.round a) s =
    .next (s.done (integerPort (dec a).sg (rhu (dec a).m.toNat (dec a).sc))) := by
  rw [exec_round, withOperand_of_valid ha]

/-- TRUNC commutes with NEG (rule R108, law 5). -/
theorem exec_trunc_togglebit : exec (.trunc (togglebit a 127)) s = .next (s.done
    (togglebit (integerPort (dec a).sg (truncp (dec a).m.toNat (dec a).sc)) 127)) := by
  rw [exec_trunc_of_valid ((valid_togglebit_sign a).trans ha), dec_togglebit_sign,
    togglebit_integerPort]

/-- ROUND commutes with NEG (rule R108, law 5). -/
theorem exec_round_togglebit : exec (.round (togglebit a 127)) s = .next (s.done
    (togglebit (integerPort (dec a).sg (rhu (dec a).m.toNat (dec a).sc)) 127)) := by
  rw [exec_round_of_valid ((valid_togglebit_sign a).trans ha), dec_togglebit_sign,
    togglebit_integerPort]

end

/-! ### The magnitude TRUNC gives (rule R104) -/

theorem truncp_zero_digits (m : Nat) : truncp m 0 = m := by
  rw [truncp, pow_zero, Nat.div_one]

theorem truncp_le_max96 (x : Triple) : truncp x.m.toNat x.sc ≤ Config.max96 :=
  (Nat.div_le_self _ _).trans (toNat_le_max96 x.m)

/-- Dropping the fraction digits is the floor of the magnitude. -/
theorem truncp_eq_floor (m k : Nat) : truncp m k = ⌊(m : ℚ) / 10 ^ k⌋₊ := by
  have h := Nat.floor_div_eq_div (K := ℚ) m (10 ^ k)
  rw [Nat.cast_pow, Nat.cast_ofNat] at h
  exact h.symm

theorem truncp_le_div (m k : Nat) : (truncp m k : ℚ) ≤ m / 10 ^ k := by
  rw [truncp_eq_floor]
  exact Nat.floor_le (by positivity)

theorem div_lt_truncp_succ (m k : Nat) : (m : ℚ) / 10 ^ k < truncp m k + 1 := by
  rw [truncp_eq_floor]
  exact Nat.lt_floor_add_one _

/-! ### The magnitude FLOOR gives (rule R105) -/

theorem floorMagnitude_eq (x : Triple) :
    floorMagnitude x = x.m.toNat / 10 ^ x.sc
      + (if x.sg = true ∧ x.m.toNat % 10 ^ x.sc ≠ 0 then 1 else 0) := by
  by_cases h : x.sg = true ∧ x.m.toNat % 10 ^ x.sc ≠ 0
  · rw [if_pos h, floorMagnitude, divPow10, if_pos (by simp [h])]
  · rw [if_neg h, floorMagnitude, divPow10, if_neg (by simpa using h), Nat.add_zero]

theorem floorMagnitude_eq_truncp {x : Triple}
    (h : x.sg = false ∨ x.m.toNat % 10 ^ x.sc = 0) :
    floorMagnitude x = truncp x.m.toNat x.sc := by
  rw [floorMagnitude_eq, if_neg (by rcases h with h | h <;> simp [h]), Nat.add_zero, truncp]

theorem floorMagnitude_eq_truncp_succ {x : Triple} (hsg : x.sg = true)
    (h : x.m.toNat % 10 ^ x.sc ≠ 0) :
    floorMagnitude x = truncp x.m.toNat x.sc + 1 := by
  rw [floorMagnitude_eq, if_pos ⟨hsg, h⟩, truncp]

/-- The unit added for a negative non-integer is never more than the digits it stands for. -/
theorem floorMagnitude_le_max96 (x : Triple) : floorMagnitude x ≤ Config.max96 := by
  refine le_trans ?_ (toNat_le_max96 x.m)
  have hdiv := Nat.div_add_mod' x.m.toNat (10 ^ x.sc)
  have hquot : x.m.toNat / 10 ^ x.sc ≤ x.m.toNat / 10 ^ x.sc * 10 ^ x.sc :=
    Nat.le_mul_of_pos_right _ (by positivity)
  rw [floorMagnitude_eq]
  split_ifs with h
  · have hrest := h.2
    omega
  · omega

/-- For a negative value the magnitude goes up to the next integer. -/
theorem floorMagnitude_eq_ceil {x : Triple} (hsg : x.sg = true) :
    (floorMagnitude x : ℤ) = ⌈(x.m.toNat : ℚ) / 10 ^ x.sc⌉ := by
  have hdiv : x.m.toNat = truncp x.m.toNat x.sc * 10 ^ x.sc + x.m.toNat % 10 ^ x.sc :=
    (Nat.div_add_mod' _ _).symm
  have hlt := div_lt_truncp_succ x.m.toNat x.sc
  symm
  rw [Int.ceil_eq_iff, Int.cast_natCast]
  by_cases hrest : x.m.toNat % 10 ^ x.sc = 0
  · rw [floorMagnitude_eq_truncp (.inr hrest)]
    refine ⟨by linarith [truncp_le_div x.m.toNat x.sc], ?_⟩
    rw [div_le_iff₀ (by positivity)]
    exact_mod_cast (by omega : x.m.toNat ≤ truncp x.m.toNat x.sc * 10 ^ x.sc)
  · rw [floorMagnitude_eq_truncp_succ hsg hrest, Nat.cast_succ, add_sub_cancel_right]
    refine ⟨?_, hlt.le⟩
    rw [lt_div_iff₀ (by positivity)]
    exact_mod_cast (by omega : truncp x.m.toNat x.sc * 10 ^ x.sc < x.m.toNat)

/-- The floor of a value is the floor of a positive magnitude, the ceiling of a negative one. -/
theorem signed_floorMagnitude (x : Triple) : signed x.sg (floorMagnitude x) = (⌊x.val⌋ : ℚ) := by
  rw [val_eq_signed]
  cases hsg : x.sg with
  | false =>
    rw [floorMagnitude_eq_truncp (.inl hsg), truncp_eq_floor]
    simp only [signed, Bool.false_eq_true, if_false, one_mul]
    exact natCast_floor_eq_intCast_floor (by positivity)
  | true =>
    simp only [signed, if_true, neg_one_mul]
    rw [Int.floor_neg, ← floorMagnitude_eq_ceil hsg, Int.cast_neg, Int.cast_natCast]

/-! ### The magnitude ROUND gives (rule R106) -/

theorem rhu_le_max96 (x : Triple) : rhu x.m.toNat x.sc ≤ Config.max96 :=
  (rhu_le_self _ _).trans (toNat_le_max96 x.m)

/-- RHU as one division. -/
theorem rhu_eq_div (m k : Nat) : rhu m k = (2 * m + 10 ^ k) / (2 * 10 ^ k) := by
  obtain ⟨hle, hlt⟩ := rhu_near m k
  symm
  apply Nat.div_eq_of_lt_le
  · rwa [Nat.mul_left_comm]
  · rw [Nat.mul_left_comm, Nat.add_mul]
    omega

theorem rhu_eq_truncp_or_succ (m k : Nat) : rhu m k = truncp m k ∨ rhu m k = truncp m k + 1 := by
  cases k with
  | zero => exact .inl (truncp_zero_digits m).symm
  | succ k =>
    rw [rhu_succ, truncp]
    split_ifs
    · exact .inr rfl
    · exact .inl rfl

/-- Rounding half up never goes down by as much as a half. -/
theorem div_lt_rhu_add_half (m k : Nat) : (m : ℚ) / 10 ^ k < rhu m k + 1 / 2 := by
  have hlt : (2 * m : ℚ) < 2 * (rhu m k * 10 ^ k) + 10 ^ k := by exact_mod_cast (rhu_near m k).2
  rw [div_lt_iff₀ (by positivity)]
  linarith

/-- A tie goes up. -/
theorem div_lt_rhu_of_tie {m k : Nat} (h : |(rhu m k : ℚ) - m / 10 ^ k| = 1 / 2) :
    (m : ℚ) / 10 ^ k < rhu m k := by
  have hup := div_lt_rhu_add_half m k
  rcases eq_or_eq_neg_of_abs_eq h with h | h <;> linarith

/-! ### The obligations -/

/-- Settles O38: the magnitude is `floorMagnitude`, which stays in 96 bits. -/
theorem floorRoundsTowardMinusInfinity : Obligations.FloorRoundsTowardMinusInfinity := by
  intro a s
  exact ⟨fun ha => (exec_floor a s).trans (withOperand_of_invalid ha s _), fun ha =>
    ⟨_, floorMagnitude_eq _, floorMagnitude_le_max96 _, exec_floor_of_valid ha s⟩⟩

/-- Settles O39: RHU is the one division, and it never exceeds the operand's mantissa. -/
theorem roundGoesHalfAwayFromZero : Obligations.RoundGoesHalfAwayFromZero := by
  intro a s
  exact ⟨fun ha => (exec_round a s).trans (withOperand_of_invalid ha s _), fun ha =>
    ⟨_, rhu_eq_div _ _, rhu_le_max96 _, exec_round_of_valid ha s⟩⟩

/-- Settles O40: encoding the flipped triple gives the operand with bit 127 toggled. -/
theorem negFlipsTheSignBit : Obligations.NegFlipsTheSignBit := by
  intro a s
  exact ⟨fun ha => (exec_neg a s).trans (withOperand_of_invalid ha s _), fun ha =>
    ⟨enc_not_dec ha, exec_neg_of_valid ha s⟩⟩

/-- Settles O41: the magnitude FLOOR gives, with the sign, is the floor of the value. -/
theorem floorIsTheFloorOfTheValue : Obligations.FloorIsTheFloorOfTheValue := by
  intro a s ha
  refine ⟨_, exec_floor_of_valid ha s, ?_⟩
  rw [portVal_integerPort (floorMagnitude_le_max96 _), signed_floorMagnitude, portVal]

/-- Settles O42: all three values have one sign, so the distances are those of the magnitudes. -/
theorem truncAndRoundAreNear : Obligations.TruncAndRoundAreNear := by
  intro a s ha
  have hle := truncp_le_div (dec a).m.toNat (dec a).sc
  have hlt := div_lt_truncp_succ (dec a).m.toNat (dec a).sc
  refine ⟨_, _, exec_trunc_of_valid ha s, exec_round_of_valid ha s,
    sg_dec_integerPort _ _, sg_dec_integerPort _ _, ?_⟩
  rw [toNat_dec_integerPort_m (truncp_le_max96 _), toNat_dec_integerPort_m (rhu_le_max96 _),
    portVal_integerPort (truncp_le_max96 _), portVal_integerPort (rhu_le_max96 _), portVal,
    val_eq_signed, ← signed_sub, ← signed_sub]
  simp only [abs_signed, Nat.abs_cast, abs_of_nonneg (hle.trans' (Nat.cast_nonneg _))]
  refine ⟨?_, hle, hlt, rhu_eq_truncp_or_succ _ _, abs_rhu_sub_le _ _, div_lt_rhu_of_tie⟩
  rw [abs_sub_lt_iff]
  constructor <;> linarith

/-- Settles O43: at scale 0 no digit is dropped, and NEG changes the sign bit alone. -/
theorem rounderAtScaleZeroAndUnderNeg : Obligations.RounderAtScaleZeroAndUnderNeg := by
  intro a s ha
  refine ⟨fun hsc => ?_, _, _, _, exec_neg_of_valid ha s, exec_trunc_of_valid ha s,
    exec_trunc_togglebit ha s, exec_round_of_valid ha s, exec_round_togglebit ha s⟩
  have hint : (dec a).m.toNat % 10 ^ (dec a).sc = 0 := by rw [hsc, pow_zero, Nat.mod_one]
  have hself := integerPort_dec ha hsc
  rw [exec_trunc_of_valid ha, exec_floor_of_valid ha, exec_round_of_valid ha,
    floorMagnitude_eq_truncp (.inr hint), hsc, truncp_zero_digits, rhu_zero_digits, hself]
  exact ⟨rfl, rfl, rfl⟩

/-- Settles O37, by the operand check. -/
theorem truncDropsTheFraction : Obligations.TruncDropsTheFraction := by
  intro a s
  exact ⟨fun ha => (exec_trunc a s).trans (withOperand_of_invalid ha s _), fun ha =>
    exec_trunc_of_valid ha s⟩

end Sys2Proof.Machine

end

section
/-! SUPPORT. Proofs for the family `60_exceptions.md`: a failing command writes ST alone (rule R113),
the order in which failures are reported (rule R114), and exactly when INVALID_INPUT (rule R117) and
OVERFLOW (rule R115) are raised. -/

namespace Sys2Proof.Machine

/-! ### Which status a command ends with (rules R110, R114) -/

/-- The command divides by a divisor of mantissa 0 (rule R116). -/
def ZeroDivisor : Instr → Prop
  | .div _ b => (dec b).m = 0
  | _ => False

/-- The four commands that can end with OVERFLOW (rule R115). -/
def CanOverflow (i : Instr) : Prop :=
  ∃ a b, i = .add a b ∨ i = .sub a b ∨ i = .mul a b ∨ i = .div a b

theorem not_zeroDivisor {i : Instr} (h : ∀ a b, i = .div a b → (dec b).m ≠ 0) :
    ¬ ZeroDivisor i := by
  cases i with
  | div a b => exact h a b rfl
  | _ => exact not_false

/-- How the command `i` can leave the state `s`, in the order of rule R114: each failure comes with the
absence of those before it. -/
inductive StatusCase (i : Instr) (s : State) : State → Prop where
  | invalid (hwf : i.wf = false) : StatusCase i s (s.raise .invalidInput)
  | zeroDivisor (hwf : i.wf = true) (hz : ZeroDivisor i) : StatusCase i s (s.raise .divByZero)
  | overflow (hwf : i.wf = true) (hz : ¬ ZeroDivisor i) (hi : CanOverflow i) :
      StatusCase i s (s.raise .overflow)
  | ok (hwf : i.wf = true) (hz : ¬ ZeroDivisor i) {t : State} (ht : t.st = 0#3) : StatusCase i s t

theorem endSum_statusCase {i : Instr} {s : State} (hwf : i.wf = true) (hz : ¬ ZeroDivisor i)
    (hi : CanOverflow i) (v : Option Triple) : StatusCase i s (s.endSum v) := by
  cases v with
  | none => exact .overflow hwf hz hi
  | some t => exact .ok hwf hz rfl

theorem endScaled_statusCase {i : Instr} {s : State} (hwf : i.wf = true) (hz : ¬ ZeroDivisor i)
    (hi : CanOverflow i) (sg : Bool) (v : Option (Nat × Nat)) :
    StatusCase i s (s.endScaled sg v) := by
  cases v with
  | none => exact .overflow hwf hz hi
  | some mt => exact .ok hwf hz rfl

theorem withOperand_statusCase {i : Instr} {a : Port} {s : State} {k : Triple → State}
    (hi : i.wf = valid a) (hk : i.wf = true → StatusCase i s (k (dec a))) :
    ∃ t, withOperand a s k = .next t ∧ StatusCase i s t := by
  rcases withOperand_cases a s k with ⟨ha, he⟩ | ⟨ha, he⟩
  · exact ⟨_, he, .invalid (hi.trans ha)⟩
  · exact ⟨_, he, hk (hi.trans ha)⟩

theorem withOperands_statusCase {i : Instr} {a b : Port} {s : State} {k : Triple → Triple → State}
    (hi : i.wf = (valid a && valid b)) (hk : i.wf = true → StatusCase i s (k (dec a) (dec b))) :
    ∃ t, withOperands a b s k = .next t ∧ StatusCase i s t := by
  rcases withOperands_cases a b s k with ⟨h, he⟩ | ⟨ha, hb, he⟩
  · exact ⟨_, he, .invalid (hi.trans (Bool.and_eq_false_iff.2 h))⟩
  · exact ⟨_, he, hk (hi.trans (Bool.and_eq_true_iff.2 ⟨ha, hb⟩))⟩

theorem compareWith_statusCase {i : Instr} {a b : Port} {s : State} (hi : i.wf = (valid a && valid b))
    (hz : ¬ ZeroDivisor i) (test : Ordering → Bool) :
    ∃ t, compareWith test a b s = .next t ∧ StatusCase i s t :=
  withOperands_statusCase hi fun hwf => .ok hwf hz rfl

theorem execDiv_statusCase (a b : Port) (s : State) :
    ∃ t, exec (.div a b) s = .next t ∧ StatusCase (.div a b) s t := by
  rw [exec_div]
  refine withOperands_statusCase rfl fun hwf => ?_
  split_ifs with hb ha
  · exact .zeroDivisor hwf hb
  · exact .ok hwf hb rfl
  · exact endScaled_statusCase hwf hb ⟨a, b, .inr (.inr (.inr rfl))⟩ _ _

/-- Every command ends in one of the ways of `StatusCase`. -/
theorem exec_statusCase (i : Instr) (s : State) : ∃ t, exec i s = .next t ∧ StatusCase i s t := by
  cases i with
  | add a b =>
    rw [exec_add]
    exact withOperands_statusCase rfl fun hwf =>
      endSum_statusCase hwf not_false ⟨a, b, .inl rfl⟩ _
  | sub a b =>
    rw [exec_sub]
    exact withOperands_statusCase rfl fun hwf =>
      endSum_statusCase hwf not_false ⟨a, b, .inr (.inl rfl)⟩ _
  | mul a b =>
    rw [exec_mul]
    exact withOperands_statusCase rfl fun hwf =>
      endScaled_statusCase hwf not_false ⟨a, b, .inr (.inr (.inl rfl))⟩ _ _
  | div a b => exact execDiv_statusCase a b s
  | cmpeq a b => exact compareWith_statusCase (i := .cmpeq a b) rfl not_false flagEq
  | cmpne a b => exact compareWith_statusCase (i := .cmpne a b) rfl not_false flagNe
  | cmplt a b => exact compareWith_statusCase (i := .cmplt a b) rfl not_false flagLt
  | cmple a b => exact compareWith_statusCase (i := .cmple a b) rfl not_false flagLe
  | cmpgt a b => exact compareWith_statusCase (i := .cmpgt a b) rfl not_false flagGt
  | cmpge a b => exact compareWith_statusCase (i := .cmpge a b) rfl not_false flagGe
  | trunc a =>
    rw [exec_trunc]
    exact withOperand_statusCase rfl fun hwf => .ok hwf not_false rfl
  | floor a =>
    rw [exec_floor]
    exact withOperand_statusCase rfl fun hwf => .ok hwf not_false rfl
  | round a =>
    rw [exec_round]
    exact withOperand_statusCase rfl fun hwf => .ok hwf not_false rfl
  | neg a =>
    rw [exec_neg]
    exact withOperand_statusCase rfl fun hwf => .ok hwf not_false rfl
  | align a b =>
    rw [exec_align]
    exact withOperands_statusCase rfl fun hwf => .ok hwf not_false rfl

namespace StatusCase

variable {i : Instr} {s t : State}

theorem eq_raise_invalidInput (h : StatusCase i s t) (hwf : i.wf = false) :
    t = s.raise .invalidInput := by
  cases h with
  | invalid _ => rfl
  | zeroDivisor hwf' _ => exact nomatch hwf.symm.trans hwf'
  | overflow hwf' _ _ => exact nomatch hwf.symm.trans hwf'
  | ok hwf' _ _ => exact nomatch hwf.symm.trans hwf'

theorem eq_raise_divByZero (h : StatusCase i s t) (hwf : i.wf = true) (hz : ZeroDivisor i) :
    t = s.raise .divByZero := by
  cases h with
  | invalid hwf' => exact nomatch hwf.symm.trans hwf'
  | zeroDivisor _ _ => rfl
  | overflow _ hz' _ => exact absurd hz hz'
  | ok _ hz' _ => exact absurd hz hz'

theorem st_eq_ok_or_overflow (h : StatusCase i s t) (hwf : i.wf = true) (hz : ¬ ZeroDivisor i) :
    t.st = 0#3 ∨ (t.st = 1#3 ∧ CanOverflow i) := by
  cases h with
  | invalid hwf' => exact nomatch hwf.symm.trans hwf'
  | zeroDivisor _ hz' => exact absurd hz' hz
  | overflow _ _ hi => exact .inr ⟨rfl, hi⟩
  | ok _ _ ht => exact .inl ht

theorem st_ne_invalidInput (h : StatusCase i s t) (hwf : i.wf = true) : t.st ≠ 4#3 := by
  cases h with
  | invalid hwf' => exact nomatch hwf.symm.trans hwf'
  | zeroDivisor _ _ => rw [State.raise_st]; decide
  | overflow _ _ _ => rw [State.raise_st]; decide
  | ok _ _ ht => rw [ht]; decide

end StatusCase

/-! ### A failing command (rule R113) -/

theorem Status.code_mem_of_ne_zero {c : Status} (h : c.code ≠ 0#3) :
    c.code ∈ [1#3, 3#3, 4#3, 7#3] := by
  cases c with
  | ok => exact absurd rfl h
  | overflow | divByZero | invalidInput | illegalOp => decide

/-- A command that ends with a status other than 0 has raised it. -/
theorem Effect.exists_eq_fail {e : Effect} {s : State} (h : (e.apply s).st ≠ 0#3) :
    ∃ c : Status, c.code ≠ 0#3 ∧ e = .fail c := by
  cases e with
  | fail c => exact ⟨c, h, rfl⟩
  | decimal v => exact absurd rfl h
  | flag b => exact absurd rfl h
  | both v b => exact absurd rfl h

/-! ### When a result overflows (rule R115) -/

theorem done_ne_raise_overflow (s : State) (v : Port) : s.done v ≠ s.raise .overflow :=
  (raise_ne_done (by decide) s v).symm

theorem endSum_eq_raise_overflow_iff {s : State} {v : Option Triple} :
    s.endSum v = s.raise .overflow ↔ v = none := by
  cases v with
  | none => exact iff_of_true rfl rfl
  | some t => exact iff_of_false (done_ne_raise_overflow s _) nofun

theorem endScaled_eq_raise_overflow_iff {s : State} {sg : Bool} {v : Option (Nat × Nat)} :
    s.endScaled sg v = s.raise .overflow ↔ v = none := by
  cases v with
  | none => exact iff_of_true rfl rfl
  | some mt => exact iff_of_false (done_ne_raise_overflow s _) nofun

theorem basicAdd_eq_none_iff (sg : Bool) (c : CommonScale) :
    basicAdd sg c = none ↔ c.s = 0 ∧ 2 ^ 96 ≤ c.mx.toNat + c.my.toNat := by
  rcases Nat.lt_or_ge Config.max96 (c.mx.toNat + c.my.toNat) with hover | hfit
  · rcases Nat.eq_zero_or_pos c.s with hs | hs
    · exact iff_of_true (basicAdd_of_overflow sg hover hs) ⟨hs, hover⟩
    · rw [basicAdd_of_carry sg hover hs]
      exact iff_of_false nofun fun h => hs.ne' h.1
  · rw [basicAdd_of_fits sg hfit]
    exact iff_of_false nofun fun h => hfit.not_gt h.2

theorem addCore_eq_none_iff (x y : Triple) :
    addCore x y = none ↔ x.sg = y.sg ∧ (common x y).s = 0 ∧
      2 ^ 96 ≤ (common x y).mx.toNat + (common x y).my.toNat := by
  by_cases hsg : x.sg = y.sg
  · rw [addCore_of_sg_eq hsg, basicAdd_eq_none_iff, and_iff_right hsg]
  · rw [addCore_of_sg_ne hsg]
    exact iff_of_false nofun fun h => hsg h.1

theorem reduceProduct_eq_none_iff (p s : Nat) {t : Nat} (ht : t ≤ Config.smax) :
    reduceProduct p s t = none ↔ Config.max96 < rhu p s := by
  refine ⟨fun h => ?_, fun hover => reduceProduct_eq_none hover t⟩
  by_contra hfit
  obtain ⟨u, -, heq⟩ := exists_reduceProduct_eq (Nat.not_lt.1 hfit) ht
  exact nomatch h.symm.trans heq

theorem divideFrom_eq_none_iff {x y : Triple} (hy : y.m ≠ 0) {t : Nat} (ht : t ≤ Config.smax)
    (hlo : x.sc - y.sc ≤ t) :
    divideFrom x y t = none ↔ Config.max96 < roundedQuotient x y (x.sc - y.sc) := by
  refine ⟨fun h => ?_, fun hover => divideFrom_eq_none hy hover ht⟩
  by_contra hfit
  obtain ⟨u, -, heq⟩ := exists_divideFrom_eq hy (Nat.not_lt.1 hfit) ht hlo
  exact nomatch h.symm.trans heq

/-- The exact quotient of the two values rounded once to an integer, half up (rule R91). -/
def integerQuotient (x y : Triple) : Nat :=
  (2 * (x.m.toNat * 10 ^ y.sc) + y.m.toNat * 10 ^ x.sc) / (2 * (y.m.toNat * 10 ^ x.sc))

theorem integerQuotient_le_max96 {x y : Triple} (hy : y.m ≠ 0)
    (h : x.m.toNat * 10 ^ y.sc ≤ Config.max96 * (y.m.toNat * 10 ^ x.sc)) :
    integerQuotient x y ≤ Config.max96 := by
  have hpos : 0 < y.m.toNat * 10 ^ x.sc :=
    Nat.mul_pos (BitVec.toNat_pos_of_ne_zero hy) (Nat.pow_pos (by decide))
  have hmul : (Config.max96 + 1) * (2 * (y.m.toNat * 10 ^ x.sc)) =
      2 * (Config.max96 * (y.m.toNat * 10 ^ x.sc)) + 2 * (y.m.toNat * 10 ^ x.sc) := by ring
  rw [integerQuotient, ← Nat.lt_succ_iff, Nat.div_lt_iff_lt_mul (by omega), Nat.succ_eq_add_one,
    hmul]
  omega

theorem integerQuotient_le_max96_of_m_eq_zero {x y : Triple} (hy : y.m ≠ 0) (hx : x.m = 0) :
    integerQuotient x y ≤ Config.max96 :=
  integerQuotient_le_max96 hy (by simp [hx])

/-- A divisor at a scale not above the dividend's, so a quotient no larger than the dividend's
mantissa. -/
theorem integerQuotient_le_max96_of_sc_le {x y : Triple} (hy : y.m ≠ 0) (h : y.sc ≤ x.sc) :
    integerQuotient x y ≤ Config.max96 := by
  refine integerQuotient_le_max96 hy (Nat.mul_le_mul (toNat_le_max96 x.m) ?_)
  calc 10 ^ y.sc ≤ 10 ^ x.sc := Nat.pow_le_pow_right (by decide) h
    _ ≤ y.m.toNat * 10 ^ x.sc := Nat.le_mul_of_pos_left _ (BitVec.toNat_pos_of_ne_zero hy)

/-- With a divisor at a higher scale, scale 0 is the lowest DIV's search tries. -/
theorem roundedQuotient_lowest_eq {x y : Triple} (h : x.sc ≤ y.sc) :
    roundedQuotient x y (x.sc - y.sc) = integerQuotient x y := by
  have hgap : x.sc - y.sc + y.sc - x.sc = y.sc - x.sc := by omega
  have hpow : 10 ^ y.sc = 10 ^ (y.sc - x.sc) * 10 ^ x.sc := by rw [← pow_add, Nat.sub_add_cancel h]
  rw [integerQuotient, roundedQuotient, hgap, hpow, ← mul_assoc, ← mul_assoc, ← mul_assoc,
    ← Nat.add_mul, ← mul_assoc, Nat.mul_div_mul_right _ _ (Nat.pow_pos (by decide))]

/-- DIV overflows when the quotient rounded to an integer does not fit (rule R91). -/
theorem max96_lt_roundedQuotient_lowest_iff {x y : Triple} (hy : y.m ≠ 0) :
    Config.max96 < roundedQuotient x y (x.sc - y.sc) ↔ Config.max96 < integerQuotient x y := by
  rcases Nat.le_total x.sc y.sc with h | h
  · rw [roundedQuotient_lowest_eq h]
  · have hle := (roundedQuotient_le_of_sc_le hy h).trans (toNat_le_max96 x.m)
    exact iff_of_false hle.not_gt (integerQuotient_le_max96_of_sc_le hy h).not_gt

/-! ### The commands that can overflow (rule R115) -/

theorem exec_add_overflow_iff {a b : Port} (ha : valid a = true) (hb : valid b = true) (s : State) :
    exec (.add a b) s = .next (s.raise .overflow) ↔
      (dec a).sg = (dec b).sg ∧ (common (dec a) (dec b)).s = 0 ∧
        2 ^ 96 ≤ (common (dec a) (dec b)).mx.toNat + (common (dec a) (dec b)).my.toNat := by
  rw [exec_add, withOperands_of_valid ha hb, Host.Outcome.next.injEq,
    endSum_eq_raise_overflow_iff, addCore_eq_none_iff]

theorem exec_sub_overflow_iff {a b : Port} (ha : valid a = true) (hb : valid b = true) (s : State) :
    exec (.sub a b) s = .next (s.raise .overflow) ↔
      (dec a).sg ≠ (dec b).sg ∧ (common (dec a) (dec b)).s = 0 ∧
        2 ^ 96 ≤ (common (dec a) (dec b)).mx.toNat + (common (dec a) (dec b)).my.toNat := by
  rw [exec_sub, withOperands_of_valid ha hb, Host.Outcome.next.injEq,
    endSum_eq_raise_overflow_iff, addCore_eq_none_iff, ← Bool.eq_not]
  rfl

theorem exec_mul_overflow_iff {a b : Port} (ha : valid a = true) (hb : valid b = true) (s : State) :
    exec (.mul a b) s = .next (s.raise .overflow) ↔
      Config.max96 < rhu ((dec a).m.toNat * (dec b).m.toNat) ((dec a).sc + (dec b).sc) := by
  rw [exec_mul, withOperands_of_valid ha hb, Host.Outcome.next.injEq,
    endScaled_eq_raise_overflow_iff, reduceProduct_eq_none_iff _ _ (Nat.min_le_right _ _)]

theorem exec_div_overflow_iff {a b : Port} (ha : valid a = true) (hb : valid b = true) (s : State) :
    exec (.div a b) s = .next (s.raise .overflow) ↔
      (dec b).m ≠ 0 ∧ Config.max96 < integerQuotient (dec a) (dec b) := by
  rw [exec_div, withOperands_of_valid ha hb, Host.Outcome.next.injEq]
  by_cases hmb : (dec b).m = 0
  · rw [if_pos hmb]
    have hne : s.raise .divByZero ≠ s.raise .overflow := fun h =>
      absurd (congrArg State.st h) (by decide : Status.divByZero.code ≠ Status.overflow.code)
    exact iff_of_false hne fun h => h.1 hmb
  rw [if_neg hmb, and_iff_right hmb]
  by_cases hma : (dec a).m = 0
  · rw [if_pos hma]
    exact iff_of_false (done_ne_raise_overflow s _)
      (integerQuotient_le_max96_of_m_eq_zero hmb hma).not_gt
  · have hlo : (dec a).sc - (dec b).sc ≤ Config.smax :=
      (Nat.sub_le _ _).trans (scale_le_of_valid ha)
    rw [if_neg hma, endScaled_eq_raise_overflow_iff, divideFrom_eq_none_iff hmb le_rfl hlo,
      max96_lt_roundedQuotient_lowest_iff hmb]

/-! ### The obligations -/

/-- Settles O44, by the way the command ends. -/
theorem invalidOperandEndsWithInvalidInput : Obligations.InvalidOperandEndsWithInvalidInput := by
  intro i s
  obtain ⟨t, ht, hcase⟩ := exec_statusCase i s
  exact ⟨fun hwf => ht.trans (congrArg _ (hcase.eq_raise_invalidInput hwf)),
    fun hwf => ⟨t, ht, hcase.st_ne_invalidInput hwf⟩⟩

/-- Settles O46: a status other than 0 has been raised, and `raise` writes ST alone. -/
theorem failedCommandChangesOnlyStatus : Obligations.FailedCommandChangesOnlyStatus := by
  intro c s t rest hs hh ht hst
  obtain ⟨e, he⟩ := execute_effect c
  obtain rfl := Host.Outcome.next.inj ((step_offer hs hh (he _)).symm.trans ht)
  obtain ⟨code, hcode, rfl⟩ := Effect.exists_eq_fail hst
  exact ⟨rfl, rfl, Status.code_mem_of_ne_zero hcode, rfl, rfl, rfl⟩

/-- Settles O47: the decoder, then the order of `StatusCase`. -/
theorem statusPriorityOrder : Obligations.StatusPriorityOrder := by
  intro c s
  cases hd : decode c with
  | error e => exact ⟨s.raise .illegalOp, by rw [execute, hd], fun _ => rfl, nofun, nofun, nofun⟩
  | ok i =>
    obtain ⟨t, ht, hcase⟩ := exec_statusCase i s
    refine ⟨t, (execute_of_decode hd s).trans ht, fun h => absurd rfl (h i), ?_, ?_, ?_⟩
    · rintro _ ⟨⟩ hwf
      rw [hcase.eq_raise_invalidInput hwf]
      rfl
    · rintro a b ⟨⟩ ha hb hz
      rw [hcase.eq_raise_divByZero (Bool.and_eq_true_iff.2 ⟨ha, hb⟩) hz]
      rfl
    · rintro _ ⟨⟩ hwf hz
      exact hcase.st_eq_ok_or_overflow hwf (not_zeroDivisor hz)

/-- Settles O26, one command at a time. -/
theorem overflowIsRaisedExactly : Obligations.OverflowIsRaisedExactly := fun _ _ s ha hb =>
  ⟨exec_add_overflow_iff ha hb s, exec_sub_overflow_iff ha hb s, exec_mul_overflow_iff ha hb s,
    exec_div_overflow_iff ha hb s⟩

end Sys2Proof.Machine

end

section
/-! SUPPORT. Proofs for the family `70_reset_and_hazards.md`: a reset edge leaves the reset values,
whatever the core was doing (rules R124, R125). -/

namespace Sys2Proof.Machine

/-- Rule R125: reset abandons the command in progress. -/
@[simp] theorem State.resetEdge_busy (s : State) : s.resetEdge.busy = false :=
  State.busy_of_none s.resetEdge_inFlight

/-! ### The obligation -/

/-- Settles O53: reset comes before every other case of an edge and of a step, and `resetEdge` sets
its registers to constants. -/
theorem resetEdgeAbandonsEverything : Obligations.ResetEdgeAbandonsEverything := by
  intro p s hr
  refine ⟨⟨s.resetEdge, (EdgeCase.reset hr).clockEdge_eq, ?_⟩, fun rest hh =>
    ⟨State.resetEdge { s with host := rest }, (StepCase.reset p rest hh hr).step_eq, ?_⟩⟩
  · simp
  · simp

end Sys2Proof.Machine

end
